-- ==== Sys2Proof/Word.lean ====
section
/-! DEFINITION. The word types of the engine (spec/00_scope.md R6, spec/30_encoding.md R43). A format V word has
no type of its own: its width, 9N + 1 bits, varies with the instance, so it is the number its bits spell (log 13). -/

namespace Sys2Proof

/-- A byte: 8 bits, the values 0 to 255 (R6). Out-of-range operands cannot be written down (R55). -/
abbrev Byte := BitVec 8

/-- A format S word, which is also a table-space address: 9 bits (R6, R43, R44). -/
abbrev SWord := BitVec 9

/-- The 256 bytes in ascending order, `[0x00, ..., 0xFF]` (R87). -/
def allBytes : List Byte := (List.range 256).map (BitVec.ofNat 8)

end Sys2Proof
end

