-- ==== Sys2Proof/Syntax.lean ====
section
/-! DEFINITION. The command set SCLE-1 (spec/30_encoding.md R49, R54): one constructor of `Instr` per row of
spec/opcode_table.json, and the words a host presents. -/

namespace Sys2Proof

/-- The operation select `op` (R45): `op` = 0 is `enc`, `op` = 1 is `dec`. -/
inductive Op where
  | enc
  | dec
deriving DecidableEq, Repr

/-- One lane of a presented beat (R46): `en[k]`, and the lane's byte `d_k`. -/
structure LaneIn where
  en : Bool
  d  : Byte
deriving DecidableEq, Repr

/-- The commands. A lane list is written lane 0 first, which is sequence order (R32, R53). -/
inductive Instr where
  /-- ENC b (R58) -/
  | enc (b : Byte)
  /-- DEC b (R59) -/
  | dec (b : Byte)
  /-- VENC en, [d_0, ..., d_{N-1}] (R68) -/
  | venc (ls : List LaneIn)
  /-- VDEC en, [d_0, ..., d_{N-1}] (R69) -/
  | vdec (ls : List LaneIn)
  /-- ENCODE x, a pseudo-operation (R54, R77) -/
  | encode (x : List Byte)
  /-- DECODE x, a pseudo-operation (R54, R77) -/
  | decode (x : List Byte)
deriving DecidableEq, Repr

/-- A command word together with where it is, which is what tells its format (R49): an S word stands between a
lane and its lookup unit, a V word at the ports. -/
inductive CmdWord where
  | s (w : SWord)
  | v (w : Nat)
deriving DecidableEq, Repr

/-- What the host presents at one evaluation (R56): nothing (`in_valid` = 0), or a command word. -/
inductive Drive where
  | idle
  | cmd (w : CmdWord)
deriving DecidableEq, Repr

end Sys2Proof
end

