-- ==== Sys2Proof/WellFormed.lean ====
section
/-! DEFINITION. When a command is one an instance with `LANES` = n can be given. Every S command and every byte
sequence is (spec/30_encoding.md R50, R55); a V command has exactly one entry per lane (R46). -/

namespace Sys2Proof

/-- `i` is a command of an instance with n lanes. -/
def Instr.wf (n : Nat) : Instr → Bool
  | .enc _    => true
  | .dec _    => true
  | .venc ls  => ls.length == n
  | .vdec ls  => ls.length == n
  | .encode _ => true
  | .decode _ => true

end Sys2Proof
end

