-- ==== Sys2Proof/Decode.lean ====
section
/-! DEFINITION. Command words to commands and back (spec/30_encoding.md R43 to R50). The decoders read the bit
positions of R44 and R46; the encoder writes the concatenations of R44 and R46. -/

namespace Sys2Proof

/-- The select bit of an operation: 0 for ENC and VENC, 1 for DEC and VDEC (R45). -/
def Op.bit : Op → BitVec 1
  | .enc => 0
  | .dec => 1

/-- The operation a select bit names (R45). -/
def opOfBit (b : Bool) : Op := if b then .dec else .enc

/-- The S word `op ‖ b` (R44), which is the lookup's table-space address (R57). -/
def sWord (op : Op) (b : Byte) : SWord := (op.bit ++ b : BitVec (1 + 8))

/-- The command a lookup of `op` on one byte is (R49). -/
def scalarInstr : Op → Byte → Instr
  | .enc, b => .enc b
  | .dec, b => .dec b

/-- The command a beat of `op` is (R49). -/
def beatInstr : Op → List LaneIn → Instr
  | .enc, ls => .venc ls
  | .dec, ls => .vdec ls

/-- Format S (R44): bit 8 is `op`, bits 7:0 are `b`. Total (R50). -/
def decodeS (w : SWord) : Instr := scalarInstr (opOfBit (w.getLsbD 8)) (w.extractLsb' 0 8)

/-- Lane k of a format V word of n lanes (R46): `en[k]` is bit 8n + k, `d_k` is bits 8k+7 : 8k. -/
def laneOfV (n : Nat) (w : Nat) (k : Nat) : LaneIn :=
  { en := w.testBit (8 * n + k), d := BitVec.ofNat 8 (w >>> (8 * k)) }

/-- Format V of n lanes (R46): bit 9n is `op`, lane 0 is lowest. -/
def decodeV (n : Nat) (w : Nat) : Instr :=
  beatInstr (opOfBit (w.testBit (9 * n))) ((List.range n).map (laneOfV n w))

/-- Why a number on the ports is no command word: it does not fit the 9n + 1 bits of a V word (log 13). -/
inductive DecodeError where
  | vWordTooWide (n : Nat) (w : Nat)
deriving DecidableEq, Repr

/-- The decoder of an instance with n lanes. Every S word and every V word is a command (R50). -/
def decode (n : Nat) : CmdWord → Except DecodeError Instr
  | .s w => .ok (decodeS w)
  | .v w => if w < 2 ^ (9 * n + 1) then .ok (decodeV n w) else .error (.vWordTooWide n w)

/-- `en[N-1] ‖ ... ‖ en[0]` as a number (R46). -/
def packEnables : List LaneIn → Nat
  | []      => 0
  | l :: ls => l.en.toNat + 2 * packEnables ls

/-- `d_{N-1} ‖ ... ‖ d_0` as a number (R46): lane 0 is the least significant byte (R32). -/
def packData : List LaneIn → Nat
  | []      => 0
  | l :: ls => l.d.toNat + 256 * packData ls

/-- The V word `op ‖ en ‖ d` of an instance with n lanes (R46), with `a ‖ b = a * 2^w + b` (R11). -/
def vWord (n : Nat) (op : Op) (ls : List LaneIn) : Nat :=
  op.bit.toNat * 2 ^ (9 * n) + packEnables ls * 2 ^ (8 * n) + packData ls

/-- The word of a command on an instance with n lanes. The pseudo-operations have none of their own (R49, R54). -/
def encode (n : Nat) : Instr → Option CmdWord
  | .enc b    => some (.s (sWord .enc b))
  | .dec b    => some (.s (sWord .dec b))
  | .venc ls  => some (.v (vWord n .enc ls))
  | .vdec ls  => some (.v (vWord n .dec ls))
  | .encode _ => none
  | .decode _ => none

/-- The number of lanes of the instance whose V words fill nbits bits, in whole bytes or exactly (log 17). -/
def tableLanes (nbits : Nat) : Nat := (nbits - 1) / 9

/-- The word of spec/opcode_table.json's numbering whose bits are w, and where it stands: a row of at most
16 bits is format S, unless its width is exactly the 10 bits of a one-lane V word; a wider row is format V (log 17). -/
def tableWord (nbits w : Nat) : Option CmdWord :=
  if nbits ≤ 16 ∧ nbits ≠ 10 then
    if w < 512 then some (.s (BitVec.ofNat 9 w)) else none
  else some (.v w)

/-- The command the decoder reads from a table row's word of nbits bits. -/
def decodeTableWord (nbits w : Nat) : Option Instr :=
  match tableWord nbits w with
  | none    => none
  | some cw =>
    match decode (tableLanes nbits) cw with
    | .ok i    => some i
    | .error _ => none

end Sys2Proof
end

