-- ==== Sys2Proof/Machine/Operands.lean ====
section
/-! DEFINITION. Operand assembly (spec/30_encoding.md R47, R48) and the canonical packing of a byte sequence into
beats (spec/42_stream.md R78). -/

namespace Sys2Proof.Machine

/-- What lane k presents to its lookup unit (R47): `S_k = op ‖ d_k` if it is enabled, nothing otherwise (R71). -/
def laneAddress (op : Op) (l : LaneIn) : Option SWord :=
  if l.en then some (sWord op l.d) else none

/-- The input list of a beat: `[ d_k : k ascending, en[k] = 1 ]` (R72). -/
def beatInput (ls : List LaneIn) : List Byte := (ls.filter (·.en)).map (·.d)

/-- The number of enabled lanes of a beat, `popcount(en)` (R72). -/
def enabledLanes (ls : List LaneIn) : Nat := ls.countP (·.en)

/-- `ceil(len / n)`, the number of beats of the canonical packing (R78). -/
def beatCount (n len : Nat) : Nat := (len + n - 1) / n

/-- Lane k of beat j of the canonical packing of x on n lanes (R78); `pad i` is the byte driven at the unused
position i. -/
def packedLane (n : Nat) (pad : Nat → Byte) (x : List Byte) (j k : Nat) : LaneIn :=
  match x[j * n + k]? with
  | some b => { en := true, d := b }
  | none   => { en := false, d := pad (j * n + k) }

/-- The canonical packing of x on n lanes (R78): beat j, for j = 0 .. ceil(len/n) - 1, as its lanes. -/
def canonicalBeats (n : Nat) (pad : Nat → Byte) (x : List Byte) : List (List LaneIn) :=
  (List.range (beatCount n x.length)).map fun j => (List.range n).map (packedLane n pad x j)

/-- The commands an instruction stands for on n lanes (R54): a pseudo-operation is the beats of its canonical
packing, any other command is itself. -/
def expand (n : Nat) (pad : Nat → Byte) : Instr → List Instr
  | .encode x => (canonicalBeats n pad x).map .venc
  | .decode x => (canonicalBeats n pad x).map .vdec
  | .enc b    => [.enc b]
  | .dec b    => [.dec b]
  | .venc ls  => [.venc ls]
  | .vdec ls  => [.vdec ls]

end Sys2Proof.Machine
end

