-- ==== Sys2Proof/Config.lean ====
section
/-! DEFINITION. The types of what an instance fixes when it is built (spec/00_scope.md R7; spec/10_state.md R13, R21;
the configuration itself is in Machine/Instance.lean), and the open values of the spec, as opaque constants without a body: nothing can evaluate one or prove a value of it. -/

namespace Sys2Proof

/-- The 512-byte constant `BLOB`; `BLOB[a]` is its byte number `a` counting from 0 (R13). -/
abbrev Blob := Vector Byte 512

/-- The cause codes of R92. Codes 5, 6 and 7 are never produced, so there is no name for them. -/
inductive InitCode where
  | ok
  | blobLength
  | encNotBijection
  | decNotBijection
  | notInverse
deriving DecidableEq, Repr

/-- What `Check` returns (R93): the code, and the `info` of the builder's report. -/
structure CheckResult where
  code : InitCode
  info : Option Nat
deriving DecidableEq, Repr

/-- `STATUS` as it stands on the pins (R21): `init_ok` (true = 1 = READY) and the 3 bits of `init_code`. -/
structure Status where
  initOk   : Bool
  initCode : BitVec 3
deriving DecidableEq, Repr

/-- `any8` (R11; U1, U2): the value of draw number k. A free value (log 6): no statement may rest on one. -/
opaque Config.any8 : Nat → Byte

/-- The byte a host drives on a lane it does not enable, "any byte (ignored)" (R78). A free value (log 7). -/
opaque Config.padByte : Nat → Byte

/-- The open content of the built-in table: an arbitrary permutation of the bytes, from which
`Machine.permBlob` makes a valid `BLOB` (R7, U4; log 1). -/
opaque Config.substitution : Equiv.Perm Byte

/-- The open number of lanes beyond the first (R8, U5; log 2). -/
opaque Config.moreLanes : Nat

end Sys2Proof
end

