-- ==== Sys2Proof/Machine/Table.lean ====
section
/-! DEFINITION. The table read-only memory, the two tables that are its halves, what makes a blob valid, and the
check of it (spec/10_state.md R13 to R16, R20; spec/20_memory.md R28, R29; spec/60_exceptions.md R92 to R94). -/

namespace Sys2Proof.Machine

/-- `ROM[a] = BLOB[a]`: the one access the block makes, `MemRead(a, 1)` (R13, R28). All 512 addresses are populated (R29). -/
def rom (R : Blob) (a : SWord) : Byte := R[a.toNat]'(by have := a.isLt; omega)

/-- `encode_table[b] = ROM[b]` (R14). -/
def encodeTable (R : Blob) (b : Byte) : Byte := R[b.toNat]'(by have := b.isLt; omega)

/-- `decode_table[b] = ROM[256 + b]` (R14). -/
def decodeTable (R : Blob) (b : Byte) : Byte := R[256 + b.toNat]'(by have := b.isLt; omega)

/-- The table an operation selects (R45). -/
def opTable (R : Blob) : Op → Byte → Byte
  | .enc => encodeTable R
  | .dec => decodeTable R

/-- `Perm(T)` (R15): every value occurs at exactly one index. -/
def Perm (T : Byte → Byte) : Prop := ∀ v, ∃! i, T i = v

/-- `Inverse(E, D)` (R15). -/
def Inverse (E D : Byte → Byte) : Prop := ∀ b, D (E b) = b ∧ E (D b) = b

/-- The last three clauses of `ValidBlob` (R16), of a blob that has the right length. -/
def ValidTables (R : Blob) : Prop :=
  Perm (encodeTable R) ∧ Perm (decodeTable R) ∧ Inverse (encodeTable R) (decodeTable R)

/-- A raw byte sequence as a blob, if it has 512 bytes; the first byte is `BLOB[0]` (R31). -/
def toBlob? (B : List Byte) : Option Blob :=
  if h : B.length = 512 then some ⟨⟨B⟩, h⟩ else none

/-- `ValidBlob(B)` (R16): `len(B) = 512` (which is when `toBlob?` answers) and the three clauses on the tables. -/
def ValidBlob (B : List Byte) : Prop := ∃ R, toBlob? B = some R ∧ ValidTables R

/-- The blob whose halves are the tables E and D, the encode half first (R29). -/
def tableBlob (E D : Byte → Byte) : Blob :=
  ⟨⟨allBytes.map E ++ allBytes.map D⟩, by simp [allBytes]⟩

/-- The valid blob of a permutation of the bytes: the permutation and its inverse (R1, log 1). -/
def permBlob (σ : Equiv.Perm Byte) : Blob := tableBlob σ σ.symm

/-- Blob bytes 0 to 255 (R14). -/
def encodeHalf (R : Blob) : List Byte := R.toList.take 256

/-- Blob bytes 256 to 511 (R14). -/
def decodeHalf (R : Blob) : List Byte := R.toList.drop 256

/-- The least value 0 to 255 that does not occur in a half (R92, R93). -/
def leastMissing (T : List Byte) : Option Nat :=
  (List.range 256).find? fun v => !T.contains (BitVec.ofNat 8 v)

/-- The least `b` with `D[E[b]] != b` (R92, R93). -/
def leastNotUndone (R : Blob) : Option Nat :=
  (List.range 256).find? fun v => decodeTable R (encodeTable R (BitVec.ofNat 8 v)) != BitVec.ofNat 8 v

/-- The tests of `Check` after the length, in their order (R93, R94). -/
def checkTables (R : Blob) : CheckResult :=
  match leastMissing (encodeHalf R) with
  | some v => { code := .encNotBijection, info := some v }
  | none   =>
    match leastMissing (decodeHalf R) with
    | some v => { code := .decNotBijection, info := some v }
    | none   =>
      match leastNotUndone R with
      | some b => { code := .notInverse, info := some b }
      | none   => { code := .ok, info := none }

/-- `Check(B)` (R93). -/
def check (B : List Byte) : CheckResult :=
  match toBlob? B with
  | none   => { code := .blobLength, info := some B.length }
  | some R => checkTables R

/-! ### The blob of a permutation passes the check: what the valid `BLOB` of State.reset rests on -/

@[simp] theorem encodeTable_tableBlob (E D : Byte → Byte) (b : Byte) : encodeTable (tableBlob E D) b = E b := by
  have := b.isLt
  simp [encodeTable, tableBlob, allBytes, this]

@[simp] theorem decodeTable_tableBlob (E D : Byte → Byte) (b : Byte) : decodeTable (tableBlob E D) b = D b := by
  simp [decodeTable, tableBlob, allBytes]

theorem encodeTable_mem (R : Blob) (i : Byte) : encodeTable R i ∈ encodeHalf R := by
  have h := i.isLt
  exact List.mem_iff_getElem?.2 ⟨i.toNat, by
    simp [encodeHalf, encodeTable, List.getElem?_take_of_lt h, show i.toNat < 512 by omega]⟩

theorem decodeTable_mem (R : Blob) (i : Byte) : decodeTable R i ∈ decodeHalf R := by
  have h := i.isLt
  exact List.mem_iff_getElem?.2 ⟨i.toNat, by
    simp [decodeHalf, decodeTable, show 256 + i.toNat < 512 by omega]⟩

/-- No value is missing from a half in which every byte occurs. -/
theorem leastMissing_eq_none {T : List Byte} (h : ∀ v, v ∈ T) : leastMissing T = none :=
  List.find?_eq_none.2 fun v _ => by simp [h (BitVec.ofNat 8 v)]

theorem leastMissing_encodeHalf {R : Blob} (h : Function.Surjective (encodeTable R)) :
    leastMissing (encodeHalf R) = none :=
  leastMissing_eq_none fun v => by obtain ⟨i, rfl⟩ := h v; exact encodeTable_mem R i

theorem leastMissing_decodeHalf {R : Blob} (h : Function.Surjective (decodeTable R)) :
    leastMissing (decodeHalf R) = none :=
  leastMissing_eq_none fun v => by obtain ⟨i, rfl⟩ := h v; exact decodeTable_mem R i

/-- The blob of a permutation and its inverse passes every test of the check (R93). -/
theorem checkTables_permBlob (σ : Equiv.Perm Byte) : checkTables (permBlob σ) = { code := .ok, info := none } := by
  have he : Function.Surjective (encodeTable (permBlob σ)) := fun v => ⟨σ.symm v, by simp [permBlob]⟩
  have hd : Function.Surjective (decodeTable (permBlob σ)) := fun v => ⟨σ v, by simp [permBlob]⟩
  have hn : leastNotUndone (permBlob σ) = none := List.find?_eq_none.2 fun v _ => by simp [permBlob]
  simp only [checkTables, leastMissing_encodeHalf he, leastMissing_decodeHalf hd, hn]

end Sys2Proof.Machine
end

