-- ==== Sys2Proof/Machine/Flags.lean ====
section
/-! DEFINITION. The block has no flags (spec/10_state.md R19). Its one status value is the constant `STATUS` (R21; its
definition over the configuration is in Machine/Instance.lean): the encoding of its code, its value for a result of the
check, and which values of it can occur (spec/60_exceptions.md R92). -/

namespace Sys2Proof.Machine

/-- `init_code` of a cause, 3 bits (R92). -/
def codeBits : InitCode → BitVec 3
  | .ok              => 0
  | .blobLength      => 1
  | .encNotBijection => 2
  | .decNotBijection => 3
  | .notInverse      => 4

/-- `STATUS = (code = 0, code)` of a check's result (R93). -/
def statusOf (r : CheckResult) : Status :=
  { initOk := codeBits r.code == 0, initCode := codeBits r.code }

/-- `STATUS` of an instance in state READY: (1, 0) (R21). -/
def readyStatus : Status := { initOk := true, initCode := 0 }

/-- The values of `STATUS` that can stand on the pins (R21, R92): code 0 with `init_ok` = 1, and codes 2, 3, 4
with `init_ok` = 0. Code 1 is in the builder's report only; 5, 6, 7 are never produced (log 14). -/
def legalStatus (st : Status) : Bool :=
  if st.initOk then st.initCode == 0
  else st.initCode == 2 || st.initCode == 3 || st.initCode == 4

end Sys2Proof.Machine
end

