-- ==== Sys2Proof/Machine/Instance.lean ====
section
/-! DEFINITION. The configuration of an instance: its `ROM`, checked when it was built (spec/60_exceptions.md R96), and
`LANES`; and `STATUS`, a definition over the configuration (spec/10_state.md R22). -/

namespace Sys2Proof.Machine

/-- The content of `ROM` (R13) with the proof of what the one check of it answered when the instance was built (R96,
R112). R22 lets a model carry the proof in its configuration; so no instance is READY over an invalid `BLOB`. -/
inductive Rom where
  | valid (R : Blob) (passed : (checkTables R).code = .ok)
  | malformed (R : Blob) (failed : (checkTables R).code ≠ .ok)
deriving DecidableEq, Repr

/-- `BLOB` (R7, R13). -/
def Rom.blob : Rom → Blob
  | .valid R _     => R
  | .malformed R _ => R

/-- `STATUS = Check(BLOB)` (R22): (1, 0) by construction where the configuration carries the proof, else what the check
answers. -/
def Rom.status : Rom → Status
  | .valid _ _     => readyStatus
  | .malformed R _ => statusOf (checkTables R)

/-- The check, run once on the bytes of an instance to be built (R96). -/
def romOf (R : Blob) : Rom :=
  if h : (checkTables R).code = .ok then .valid R h else .malformed R h

/-- The `ROM` of a permutation of the bytes and its inverse, which passes the check (log 1). -/
def permRom (σ : Equiv.Perm Byte) : Rom :=
  .valid (permBlob σ) (congrArg CheckResult.code (checkTables_permBlob σ))

end Sys2Proof.Machine

namespace Sys2Proof

/-- The configuration of an instance: the parameter of every engine operation, never changed (R27, log 3). -/
structure Config where
  /-- `BLOB` (R7), the content of `ROM` (R13), checked (R96) -/
  rom        : Machine.Rom
  /-- `LANES` - 1, so that `LANES` >= 1 needs no premise (R8) -/
  extraLanes : Nat
deriving DecidableEq, Repr

/-- `LANES`, written N (R8). -/
def Config.lanes (c : Config) : Nat := c.extraLanes + 1

/-- `BLOB` (R7). -/
def Config.blob (c : Config) : Blob := c.rom.blob

/-- `STATUS` (R21, R22): a function of `BLOB` only. -/
def Config.status (c : Config) : Status := c.rom.status

end Sys2Proof
end

