-- ==== Sys2Proof/Machine/Ports.lean ====
section
/-! DEFINITION. The ports of an instance (spec/10_state.md R23) as signals: the input ports of a presented beat, the output
ports with their idle value (spec/41_vector_beat.md R76), and what a host takes from them (R72, spec/42_stream.md R79). -/

namespace Sys2Proof.Machine

/-- One output lane: `out_en[k]`, and the lane's byte of `out_data` (R23). -/
structure LaneOut where
  en : Bool
  d  : Byte
deriving DecidableEq, Repr

/-- `out_valid`, and the output lanes, lane 0 first (R23, R32). -/
structure OutPorts where
  valid : Bool
  lanes : List LaneOut
deriving DecidableEq, Repr

/-- The ports while nothing is delivered (R75, R76): `out_valid` = 0, every `out_en[k]` = 0, every lane's data
`any8`: the free values of draw numbers `draws` to `draws + n - 1`. -/
def quietPorts (n draws : Nat) : OutPorts :=
  { valid := false, lanes := (List.range n).map fun k => { en := false, d := Config.any8 (draws + k) } }

/-- What a host takes as output (R79, R111): the data of the lanes with `out_valid` = 1 and `out_en[k]` = 1, lane 0 upward. -/
def portBytes (o : OutPorts) : List Byte :=
  if o.valid then (o.lanes.filter (·.en)).map (·.d) else []

/-- The input ports while `in_valid` = 1 (R23): `op`, `in_en` as an N-bit number and `in_data` as an 8N-bit number. -/
structure InPorts where
  op   : BitVec 1
  en   : Nat
  data : Nat
deriving DecidableEq, Repr

/-- The port values a V word of an instance with n lanes stands for (R43, R46). -/
def portsOfWord (n w : Nat) : InPorts :=
  { op := BitVec.ofBool (w.testBit (9 * n)), en := w / 2 ^ (8 * n) % 2 ^ n, data := w % 2 ^ (8 * n) }

/-- The V word that serialises port values (R43, R46): `op ‖ in_en ‖ in_data`. -/
def wordOfPorts (n : Nat) (p : InPorts) : Nat := p.op.toNat * 2 ^ (9 * n) + p.en * 2 ^ (8 * n) + p.data

/-- What stands on the input ports of an instance with n lanes (R23, R56): `none` is `in_valid` = 0. An S word is not on
the ports (R49). -/
def inPorts (n : Nat) : List Drive → Option InPorts
  | .cmd (.v w) :: _ => some (portsOfWord n w)
  | _                => none

/-- `out_en` as an N-bit number (R23): bit k is lane k's enable. -/
def outEnBus : List LaneOut → Nat
  | []      => 0
  | l :: ls => l.en.toNat + 2 * outEnBus ls

/-- `out_data` as an 8N-bit number (R23, R32): lane k's byte is bits 8k+7 : 8k. -/
def outDataBus : List LaneOut → Nat
  | []      => 0
  | l :: ls => l.d.toNat + 256 * outDataBus ls

end Sys2Proof.Machine
end

