-- ==== Sys2Proof/Machine/State.lean ====
section
/-! DEFINITION. The state of the machine as plain data (spec/10_state.md R13, R21, R23, R26), the reasons a step can
stop, and the state after reset. The block has no register, no program counter, no flag and no writable memory
(R17, R18, R19, R30): besides its two constants and its ports, the fields are the model's own (INVENTORY.md, State). -/

namespace Sys2Proof.Machine

/-- Why the machine stops with a fault. -/
inductive Fault where
  /-- Raised by `readStatus`, a host's read of the `STATUS` pins, for a pair that cannot occur (U12: "a host that sees
  one is looking at broken hardware"; R21, R92; log 14). Safe: no state's `STATUS` is such a pair, so that no command and
  no step raises it (statement BrokenStatusFaults). -/
  | brokenStatus (st : Status)
deriving DecidableEq, Repr

/-- Why a command has no result. -/
inductive Refusal where
  /-- Raised by exec for an instruction that has no meaning yet. Safe. -/
  | notModelled (mnemonic : String)
  /-- Raised by every command presented in state INIT_FAILED, with `init_code` (R65, R75, R97). Safe: it is the outcome
  the spec names. -/
  | malformedTable (code : BitVec 3)
  /-- Raised by step for a number that does not fit the V word of the instance, so that no host can drive it (R43, R46;
  log 13). Safe. -/
  | notACommandWord (e : DecodeError)
  /-- Raised by VENC and VDEC for a lane list that has not one entry per lane of the instance, so that no V word
  spells it (R46; log 13). Safe. -/
  | wrongLaneCount (expected found : Nat)
deriving DecidableEq, Repr

/-- The state: the instance's configuration, its output ports, and the model's own fields. -/
structure State where
  /-- `BLOB` and `LANES`: constant (R13, R8, R27; log 3) -/
  config : Config
  /-- the output ports as the last evaluation left them (R23, R24; log 16) -/
  out    : OutPorts
  /-- the model's own: the byte the last ENC or DEC answered (R57 to R59; log 9) -/
  result : Byte
  /-- the model's own: the output sequence collected so far (R79; log 8) -/
  output : List Byte
  /-- the model's own: what the host presents next, oldest first (R56, R78, R89; log 10) -/
  stream : List Drive
  /-- the model's own: how many free values have been drawn (R11; log 6) -/
  draws  : Nat
deriving DecidableEq, Repr

/-- `STATUS` on the pins, driven at all times: no field, but a definition over the configuration (R21, R22). -/
def State.status (s : State) : Status := s.config.status

/-- An instance as it is after build, after power-up and after any reset (R26, R107): its configuration, idle outputs, and
nothing else. `result` is a free value, `stream` and `output` are empty (log 8, 9, 10). -/
def State.built (c : Config) : State where
  config := c
  out    := quietPorts c.lanes 0
  result := Config.any8 c.lanes
  output := []
  stream := []
  draws  := c.lanes + 1

/-- The machine right after reset: a READY instance of an arbitrary valid `BLOB` and an arbitrary number of lanes
(R26, R107; log 1, log 2, log 4). -/
def State.reset : State :=
  State.built { rom := permRom Config.substitution, extraLanes := Config.moreLanes }

end Sys2Proof.Machine
end

