-- ==== Sys2Proof/Machine/Ops.lean ====
section
/-! DEFINITION. The shared operations: the lookup (spec/40_lookup.md R57), the beat function
(spec/41_vector_beat.md R67), the combinational output function (R24, R75, R76), the one exception
(spec/60_exceptions.md R91, R96, R97) and the one place where a command looks at `STATUS`. -/

namespace Sys2Proof.Machine

/-- `Lookup(op, b) = ROM[op ‖ b]` (R57). -/
def lookup (R : Blob) (op : Op) (b : Byte) : Byte := rom R (sWord op b)

/-- One lane of a beat (R67): the lane's lookup if it is enabled, else the free value of draw number `draw` (U1). -/
def laneOut (R : Blob) (op : Op) (draw : Nat) (l : LaneIn) : LaneOut :=
  match laneAddress op l with
  | some a => { en := true, d := rom R a }
  | none   => { en := false, d := Config.any8 draw }

/-- All lanes of a beat (R67), lane 0 first; lane k draws number `draw + k`. -/
def laneOuts (R : Blob) (op : Op) (draw : Nat) : List LaneIn → List LaneOut
  | []      => []
  | l :: ls => laneOut R op draw l :: laneOuts R op (draw + 1) ls

/-- The output ports as a function of what stands on the input ports (R24), for `BLOB` and `STATUS` of the instance:
a beat in READY (R67), a beat in INIT_FAILED (R75), or idle (`none`, R76). `draws` numbers the free values. -/
def evaluate (c : Config) (draws : Nat) : Option (Op × List LaneIn) → OutPorts
  | none          => quietPorts c.lanes draws
  | some (op, ls) =>
    if c.status.initOk then { valid := true, lanes := laneOuts c.blob op draws ls }
    else quietPorts c.lanes draws

/-- Taking the one exception (R97): the presented command is refused with `init_code`. Nothing is saved, no mode changes,
control goes nowhere, and there is no return (R98). -/
def takeMalformedTable (s : State) : Host.Outcome State Fault Refusal :=
  .refused (.malformedTable s.status.initCode)

/-- A command's next state if the instance is READY; the refusal if it is INIT_FAILED (R58, R65, R75). -/
def whenReady (s t : State) : Host.Outcome State Fault Refusal :=
  if s.status.initOk then .next t else takeMalformedTable s

/-- What a host makes of the pair it reads on the `STATUS` pins (R21, R23): the pair, or, for one that cannot occur, that
it is looking at broken hardware (U12; log 14). -/
def readStatus (pins : Status) : Except Fault Status :=
  if legalStatus pins then .ok pins else .error (.brokenStatus pins)

/-- The effect of one lookup command: its result byte, and no other state (R58, R59). -/
def commitLookup (op : Op) (b : Byte) (s : State) : State :=
  { s with result := lookup s.config.blob op b }

/-- The effect of one beat (R67): the output ports, which a host reads into the output sequence (R79). One free value
is drawn per lane. -/
def commitBeat (op : Op) (ls : List LaneIn) (s : State) : State :=
  let o := evaluate s.config s.draws (some (op, ls))
  { s with out := o, output := s.output ++ portBytes o, draws := s.draws + s.config.lanes }

/-- One scalar lookup as a command (R58, R59). -/
def runLookup (op : Op) (b : Byte) (s : State) : Host.Outcome State Fault Refusal :=
  whenReady s (commitLookup op b s)

/-- One beat as a command (R67, R73, R75), of exactly as many lanes as the instance has (R46). -/
def runBeat (op : Op) (ls : List LaneIn) (s : State) : Host.Outcome State Fault Refusal :=
  if ls.length = s.config.lanes then whenReady s (commitBeat op ls s)
  else .refused (.wrongLaneCount s.config.lanes ls.length)

/-- Beats one after another (R78), each by `run`; a stop of one is the stop of all. -/
def runBeats (run : List LaneIn → State → Host.Outcome State Fault Refusal) :
    List (List LaneIn) → State → Host.Outcome State Fault Refusal
  | [],      s => .next s
  | b :: bs, s =>
    match run b s with
    | .next t    => runBeats run bs t
    | .fault f   => .fault f
    | .refused r => .refused r

/-- An evaluation with `in_valid` = 0 (R76): the outputs are idle and nothing is recorded (log 11). -/
def idleEvaluation (s : State) : State :=
  { s with out := evaluate s.config s.draws none, draws := s.draws + s.config.lanes }

/-- The host goes on to the rest of what it presents (R56). -/
def withStream (rest : List Drive) (s : State) : State := { s with stream := rest }

/-- The builder's report (R96): the result of the check, and the instance if there is one. -/
structure BuildReport where
  check    : CheckResult
  instanceBuilt : Option State
deriving DecidableEq, Repr

/-- Building an instance from raw bytes and a number of lanes (R96, R112): the check runs once, here. A blob of the
wrong length gives no instance (R92), nor does `LANES` = 0 (R8, log 20); a malformed one of the right length gives an
instance that is INIT_FAILED for ever (log 5). -/
def build (B : List Byte) (lanes : Nat) : BuildReport :=
  { check := check B
    instanceBuilt :=
      match toBlob? B, lanes with
      | some R, n + 1 => some (State.built { rom := romOf R, extraLanes := n })
      | _, _          => none }

end Sys2Proof.Machine
end

