-- ==== Sys2Proof/Machine/Beat.lean ====
section
/-! DEFINITION. The parallel-lane commands VENC and VDEC (spec/41_vector_beat.md R68, R69, R75). -/

namespace Sys2Proof.Machine

/-- VENC en, [d_0, ..., d_{N-1}] (R68). -/
def execVenc (ls : List LaneIn) (s : State) : Host.Outcome State Fault Refusal := runBeat .enc ls s

/-- VDEC en, [d_0, ..., d_{N-1}] (R69). -/
def execVdec (ls : List LaneIn) (s : State) : Host.Outcome State Fault Refusal := runBeat .dec ls s

end Sys2Proof.Machine
end

