-- ==== Sys2Proof/Machine/Scalar.lean ====
section
/-! DEFINITION. The scalar commands ENC and DEC (spec/40_lookup.md R58, R59, R65). -/

namespace Sys2Proof.Machine

/-- ENC b (R58). -/
def execEnc (b : Byte) (s : State) : Host.Outcome State Fault Refusal := runLookup .enc b s

/-- DEC b (R59). -/
def execDec (b : Byte) (s : State) : Host.Outcome State Fault Refusal := runLookup .dec b s

end Sys2Proof.Machine
end

