-- ==== Sys2Proof/Machine/Stream.lean ====
section
/-! DEFINITION. The pseudo-operations ENCODE and DECODE (spec/30_encoding.md R54; spec/42_stream.md R77 to R79): the
beats of the canonical packing, one after another. The byte of an unused lane is a free value (R78, log 7). -/

namespace Sys2Proof.Machine

/-- The beats a host presents for the sequence x on the instance of s (R78); the unused positions' bytes are numbered on
from the draw counter. -/
def hostBeats (x : List Byte) (s : State) : List (List LaneIn) :=
  canonicalBeats s.config.lanes (fun i => Config.padByte (s.draws + i)) x

/-- ENCODE x (R54, R77). -/
def execEncode (x : List Byte) (s : State) : Host.Outcome State Fault Refusal := runBeats execVenc (hostBeats x s) s

/-- DECODE x (R54, R77). -/
def execDecode (x : List Byte) (s : State) : Host.Outcome State Fault Refusal := runBeats execVdec (hostBeats x s) s

end Sys2Proof.Machine
end

