-- ==== Sys2Proof/Machine/Dispatch.lean ====
section
/-! DEFINITION. One arm per command: its meaning (spec/30_encoding.md R49, R54). -/

namespace Sys2Proof.Machine

def exec (i : Instr) (s : State) : Host.Outcome State Fault Refusal :=
  match i with
  | .enc b => Sys2Proof.Machine.execEnc b s
  | .dec b => Sys2Proof.Machine.execDec b s
  | .venc ls => Sys2Proof.Machine.execVenc ls s
  | .vdec ls => Sys2Proof.Machine.execVdec ls s
  | .encode x => Sys2Proof.Machine.execEncode x s
  | .decode x => Sys2Proof.Machine.execDecode x s

end Sys2Proof.Machine
end

