-- ==== Sys2Proof/Machine/Step.lean ====
section
/-! DEFINITION. One step: one evaluation of the engine with what the host presents (spec/30_encoding.md R56). The block
fetches nothing (spec/10_state.md R18): the command word is the head of `stream` (log 10). -/

namespace Sys2Proof.Machine

/-- One evaluation: idle while the host presents nothing (R76), else the presented word is decoded and run. -/
def step (s : State) : Host.Outcome State Fault Refusal :=
  match s.stream with
  | []              => .next (idleEvaluation s)
  | .idle :: rest   => .next (idleEvaluation (withStream rest s))
  | .cmd w :: rest  =>
    match decode s.config.lanes w with
    | .ok i    => exec i (withStream rest s)
    | .error e => .refused (.notACommandWord e)

/-- s with a table row's word as what the host presents next. A V word is one of an instance with as many lanes as its
width says, so the lanes are set with it, and idle output ports of that many lanes, whose `any8` are drawn afresh (R11;
log 6, log 17). -/
def State.withFetchWord (s : State) (nbits w : Nat) : State :=
  match tableWord nbits w with
  | none        => s
  | some (.s v) => { s with stream := [.cmd (.s v)] }
  | some (.v v) =>
    { s with
      config := { s.config with extraLanes := tableLanes nbits - 1 }
      out    := quietPorts (tableLanes nbits) s.draws
      draws  := s.draws + tableLanes nbits
      stream := [.cmd (.v v)] }

end Sys2Proof.Machine
end

