-- ==== Sys2Proof/Machine/LookupUnit.lean ====
section
/-! DEFINITION. The structure of one lookup unit as gates (spec/40_lookup.md R60): an 8-bit address decoder with 256
one-hot lines, an AND-OR multiplexer over the entries of each table, and the 2-to-1 table select. No meaning uses it: the
structure is not observable, and a statement says that it computes `Lookup`. -/

namespace Sys2Proof.Machine

/-- `sel[j]`: 1 exactly when the address is j (R60). -/
def selectLine (b : Byte) (j : Byte) : Bool := b == j

/-- `out[n]`: the OR over all j of `sel[j] AND T[j][n]` (R60). -/
def muxBit (T : Byte → Byte) (b : Byte) (n : Nat) : Bool :=
  allBytes.any fun j => selectLine b j && (T j).getLsbD n

/-- The multiplexer's output byte, bit by bit (R60). -/
def muxByte (T : Byte → Byte) (b : Byte) : Byte := BitVec.ofFnLE fun n : Fin 8 => muxBit T b n

/-- The lookup unit: `result = decode_out if op = 1 else encode_out` (R60). -/
def lookupUnit (R : Blob) (op : Op) (b : Byte) : Byte :=
  if op.bit = 1 then muxByte (decodeTable R) b else muxByte (encodeTable R) b

end Sys2Proof.Machine
end

