-- ==== Sys2Proof/Safety.lean ====
section
/-! DEFINITION. What claims about runs are stated in: the launch premises (spec/70_reset_and_hazards.md R121), the two
states of an instance (spec/00_scope.md R12), the invariant of the machine, and what a stream of words delivers
(spec/42_stream.md R79). -/

namespace Sys2Proof.Machine

/-- `LaunchOK(BLOB, N)` (R121). -/
def LaunchOK (B : List Byte) (n : Nat) : Prop := ValidBlob B ∧ 1 ≤ n

/-- State READY: `STATUS` = (1, 0) (R12, R21). -/
def State.Ready (s : State) : Prop := s.status = readyStatus

/-- State INIT_FAILED: `init_ok` = 0 (R12, R21). -/
def State.InitFailed (s : State) : Prop := s.status.initOk = false

/-- The invariant: `STATUS = Check(BLOB)` (R22, which holds of every state there is), the output ports have N lanes (R23),
and no lane is enabled while `out_valid` = 0 (R26, R75, R76). -/
def State.Inv (s : State) : Prop :=
  s.status = statusOf (checkTables s.config.blob) ∧
  s.out.lanes.length = s.config.lanes ∧
  (s.out.valid = false → ∀ l ∈ s.out.lanes, l.en = false)

/-- A run that never stops delivers; one that meets a refused beat is no successful run (R97). -/
def Delivers (s : State) (k : Nat) : Prop := ∃ t, Host.Core.run Sys2Proof.core k s = .next t

/-- What one entry of the host's stream contributes to the output sequence on a READY instance (R72, R79): a V word its
enabled lanes' lookups, an S word and an idle evaluation nothing. -/
def driveOutput (c : Config) : Drive → List Byte
  | .idle       => []
  | .cmd (.s _) => []
  | .cmd (.v w) =>
    match decodeV c.lanes w with
    | .venc ls => (beatInput ls).map (lookup c.blob .enc)
    | .vdec ls => (beatInput ls).map (lookup c.blob .dec)
    | _        => []

/-- An entry of the host's stream that an instance with n lanes can be driven with: a V word has 9n + 1 bits (R43). -/
def driveFits (n : Nat) : Drive → Prop
  | .idle       => True
  | .cmd (.s _) => True
  | .cmd (.v w) => w < 2 ^ (9 * n + 1)

end Sys2Proof.Machine
end

