-- ==== Sys2Proof/Certificates/Slice0/Obligations.lean ====
section
/-! DEFINITION. The statements for the provers. Each cites the rule of spec/ that it formalises. -/

open Sys2Proof Sys2Proof.Machine

/-! ### Encoding (spec/30_encoding.md) -/

/-- R44, R46, R49: decoding the word of a well-formed command gives the command back, with every operand at every value. -/
def Obligations.DecodeOfEncodeIsIdentity : Prop :=
  ∀ (n : Nat) (i : Instr) (w : CmdWord), i.wf n = true → encode n i = some w → decode n w = .ok i

/-- R44, R46, R50: whatever the decoder reads from a word is a well-formed command whose word is that word, so that no bit
of a word is dropped. -/
def Obligations.EncodeOfDecodeIsIdentity : Prop :=
  ∀ (n : Nat) (w : CmdWord) (i : Instr), decode n w = .ok i → i.wf n = true ∧ encode n i = some w

/-- R50: every S word is a lookup and every V word a beat of exactly n lanes; there is no illegal encoding. -/
def Obligations.EveryWordIsACommand : Prop :=
  (∀ (n : Nat) (w : SWord), ∃ op b, decode n (.s w) = .ok (scalarInstr op b)) ∧
  (∀ (n : Nat) (w : Nat), w < 2 ^ (9 * n + 1) →
    ∃ op ls, ls.length = n ∧ decode n (.v w) = .ok (beatInstr op ls))

/-- R46: in the V word of a beat, bit 9n is `op`, bit 8n + k is `en[k]`, bits 8k+7 : 8k are `d_k`, there is no bit above
bit 9n, and the three fields are the ports `op`, `in_en` and `in_data`. -/
def Obligations.VWordFieldPositions : Prop :=
  ∀ (op : Op) (ls : List LaneIn),
    (vWord ls.length op ls).testBit (9 * ls.length) = decide (op = .dec) ∧
    vWord ls.length op ls < 2 ^ (9 * ls.length + 1) ∧
    portsOfWord ls.length (vWord ls.length op ls) = { op := op.bit, en := packEnables ls, data := packData ls } ∧
    ∀ (k : Nat) (l : LaneIn), ls[k]? = some l →
      (vWord ls.length op ls).testBit (8 * ls.length + k) = l.en ∧
      ∀ j, j < 8 → (vWord ls.length op ls).testBit (8 * k + j) = l.d.getLsbD j

/-- R23, R32, R43: the V word serialises the port values and nothing is lost; on `in_en` and `out_en` lane k is bit k, and
on `in_data` and `out_data` lane k is bits 8k+7 : 8k, so the byte at the lowest position is the least significant. -/
def Obligations.BusesCarryLaneZeroLowest : Prop :=
  (∀ n w : Nat, w < 2 ^ (9 * n + 1) →
    wordOfPorts n (portsOfWord n w) = w ∧
    ∀ k, k < n → (portsOfWord n w).en.testBit k = (laneOfV n w k).en ∧
      ∀ j, j < 8 → (portsOfWord n w).data.testBit (8 * k + j) = (laneOfV n w k).d.getLsbD j) ∧
  (∀ (o : List LaneOut) (k : Nat) (l : LaneOut), o[k]? = some l →
    (outEnBus o).testBit k = l.en ∧ ∀ j, j < 8 → (outDataBus o).testBit (8 * k + j) = l.d.getLsbD j)

/-- R47, R48: an enabled lane presents `op ‖ d = 256 * op + d`, in 0 .. 511; a disabled lane presents nothing. -/
def Obligations.LanePresentsConcatenation : Prop :=
  ∀ (op : Op) (d : Byte),
    (∃ a, laneAddress op { en := true, d := d } = some a ∧ a = sWord op d ∧
      a.toNat = 256 * op.bit.toNat + d.toNat) ∧
    laneAddress op { en := false, d := d } = none

/-- Words the spec writes out (spec/95_test_vectors.md T8, B2, B6, B13; spec/40_lookup.md R59). -/
def Obligations.SpecWordsDecode : Prop :=
  decode 1 (.s 0x048) = .ok (.enc 0x48) ∧
  decode 1 (.s 0x179) = .ok (.dec 0x79) ∧
  decode 1 (.v 0x301) = .ok (.vdec [⟨true, 0x01⟩]) ∧
  decode 2 (.v 0x201AA) = .ok (.venc [⟨false, 0xAA⟩, ⟨true, 0x01⟩]) ∧
  decode 4 (.v 0x0AFF004800) = .ok (.venc [⟨false, 0x00⟩, ⟨true, 0x48⟩, ⟨false, 0x00⟩, ⟨true, 0xFF⟩])

/-- The model's choice (log 13): a number with more than 9N + 1 bits is no V word of the instance; the step refuses it by
name. -/
def Obligations.TooWideNumberIsRefused : Prop :=
  ∀ (s : State) (w : Nat) (rest : List Drive), s.stream = .cmd (.v w) :: rest →
    2 ^ (9 * s.config.lanes + 1) ≤ w → step s = .refused (.notACommandWord (.vWordTooWide s.config.lanes w))

/-! ### The table and its check (spec/10_state.md, spec/60_exceptions.md) -/

/-- R20: one direction of the inverse relation gives both bijections and the other direction; and `ValidBlob(B)` is
`len(B) = 512 and for every b: B[256 + B[b]] = b`. -/
def Obligations.OneDirectionOfInverseSuffices : Prop :=
  (∀ E D : Byte → Byte, (∀ b, D (E b) = b) → Perm E ∧ Perm D ∧ ∀ b, E (D b) = b) ∧
  (∀ B : List Byte, ValidBlob B ↔
    B.length = 512 ∧ ∀ b v : Byte, B[b.toNat]? = some v → B[256 + v.toNat]? = some b)

/-- R16, R15: `ValidBlob` is its four clauses, read off the raw bytes. -/
def Obligations.ValidBlobIsItsFourClauses : Prop :=
  ∀ B : List Byte, ValidBlob B ↔
    B.length = 512 ∧
    (∀ v : Byte, ∃! i : Byte, B[i.toNat]? = some v) ∧
    (∀ v : Byte, ∃! i : Byte, B[256 + i.toNat]? = some v) ∧
    (∀ b v : Byte, (B[b.toNat]? = some v → B[256 + v.toNat]? = some b) ∧
      (B[256 + b.toNat]? = some v → B[v.toNat]? = some b))

/-- R93, with the numbers of R92, and R94: `Check`, test by test, and the `STATUS` each result stands for: the length
(code 1), then the least value missing from the encode half (code 2), then from the decode half (code 3), then the least b
that is not undone (code 4), then none (code 0, `init_ok` = 1); `Check(B).code = 0` exactly for a valid blob; and
`STATUS = (code = 0, code)`. -/
def Obligations.CheckReportsFirstFailure : Prop :=
  (∀ B : List Byte, B.length ≠ 512 →
    check B = { code := .blobLength, info := some B.length } ∧ statusOf (check B) = { initOk := false, initCode := 1 }) ∧
  (∀ (B : List Byte) (R : Blob), toBlob? B = some R →
    (∀ v : Byte, (∀ i, encodeTable R i ≠ v) → (∀ u : Byte, u < v → ∃ i, encodeTable R i = u) →
      check B = { code := .encNotBijection, info := some v.toNat } ∧
      statusOf (check B) = { initOk := false, initCode := 2 }) ∧
    ((∀ u, ∃ i, encodeTable R i = u) →
      (∀ v : Byte, (∀ i, decodeTable R i ≠ v) → (∀ u : Byte, u < v → ∃ i, decodeTable R i = u) →
        check B = { code := .decNotBijection, info := some v.toNat } ∧
        statusOf (check B) = { initOk := false, initCode := 3 }) ∧
      ((∀ u, ∃ i, decodeTable R i = u) →
        (∀ b : Byte, decodeTable R (encodeTable R b) ≠ b →
          (∀ u : Byte, u < b → decodeTable R (encodeTable R u) = u) →
          check B = { code := .notInverse, info := some b.toNat } ∧
          statusOf (check B) = { initOk := false, initCode := 4 }) ∧
        ((∀ b, decodeTable R (encodeTable R b) = b) →
          check B = { code := .ok, info := none } ∧ statusOf (check B) = { initOk := true, initCode := 0 })))) ∧
  (∀ B : List Byte, (check B).code = .ok ↔ ValidBlob B) ∧
  (∀ B : List Byte, (statusOf (check B)).initOk = decide ((check B).code = .ok) ∧
    (statusOf (check B)).initCode = codeBits (check B).code)

/-- R22: in every state there is, `STATUS = Check(BLOB)`, so that `init_ok` = 1 exactly over a valid blob, and the same
blob gives the same `STATUS` whatever else the states hold; and no command changes it. -/
def Obligations.StatusIsTheCheckOfTheBlob : Prop :=
  (∀ s : State, s.status = statusOf (check s.config.blob.toList) ∧
    (s.status.initOk = true ↔ ValidBlob s.config.blob.toList) ∧ (s.Ready ↔ ValidBlob s.config.blob.toList) ∧
    (s.InitFailed ↔ ¬ ValidBlob s.config.blob.toList)) ∧
  (∀ s₁ s₂ : State, s₁.config.blob = s₂.config.blob → s₁.status = s₂.status) ∧
  (∀ (i : Instr) (s t : State), exec i s = .next t → t.status = s.status)

/-- R21: on every instance that is built, `init_ok` = 1 exactly when the blob is valid and exactly when `init_code` = 0,
and `init_code` is 0, 2, 3 or 4. -/
def Obligations.BuiltStatusShowsValidity : Prop :=
  ∀ (B : List Byte) (n : Nat) (s : State), (build B n).instanceBuilt = some s →
    (s.status.initOk = true ↔ ValidBlob B) ∧
    (s.status.initOk = true ↔ s.status.initCode = 0) ∧
    (s.status.initCode = 0 ∨ s.status.initCode = 2 ∨ s.status.initCode = 3 ∨ s.status.initCode = 4)

/-- R96, R107, R121 (and the model's choices, log 5 and log 20): the builder reports `Check`; a blob of 512 bytes and at
least one lane give an instance that holds exactly those bytes, drives `STATUS = Check(BLOB)`, meets the invariant, and is
READY exactly under the launch premises; any other blob, or no lane, gives none. -/
def Obligations.BuilderReportsAndBuilds : Prop :=
  ∀ (B : List Byte) (n : Nat),
    (build B n).check = check B ∧
    (B.length = 512 → 1 ≤ n → ∃ s, (build B n).instanceBuilt = some s ∧ s.config.blob.toList = B ∧
      s.config.lanes = n ∧ s.status = statusOf (check B) ∧ s.Inv ∧ (s.Ready ↔ LaunchOK B n)) ∧
    (B.length ≠ 512 ∨ n = 0 → (build B n).instanceBuilt = none)

/-- R7, R16 (log 1): the valid blobs are exactly those of a permutation of the bytes and its inverse, so the open
permutation of State.reset stands for every valid `BLOB`. -/
def Obligations.ValidTablesArePermutationBlobs : Prop :=
  ∀ R : Blob, ValidTables R ↔ ∃ σ : Equiv.Perm Byte, R = permBlob σ

/-- R26, R107: after reset the instance is READY with a valid blob, drives no valid output and no output enable, and
meets the invariant. That the instance of State.reset is a READY one is the model's choice (log 1, log 4). -/
def Obligations.ResetMeetsInvariant : Prop :=
  State.reset.Inv ∧ State.reset.Ready ∧ ValidTables State.reset.config.blob ∧ State.reset.out.valid = false

/-! ### The lookup (spec/40_lookup.md) -/

/-- R57, R14: `Lookup(op, b) = ROM[op ‖ b] = ROM[256 * op + b]`, which is the entry of the table `op` selects; the tables
are the two halves of `ROM`. -/
def Obligations.LookupReadsSelectedTable : Prop :=
  ∀ (R : Blob) (op : Op) (b : Byte),
    lookup R op b = rom R (sWord op b) ∧
    lookup R op b = rom R (BitVec.ofNat 9 (256 * op.bit.toNat + b.toNat)) ∧
    lookup R .enc b = encodeTable R b ∧ lookup R .dec b = decodeTable R b

/-- R63: in state READY, each command is one-to-one and onto the bytes. -/
def Obligations.LookupIsBijective : Prop :=
  ∀ (s : State) (op : Op), s.Ready → Function.Bijective (lookup s.config.blob op)

/-- R64: in state READY, DEC undoes ENC and ENC undoes DEC, as commands on the machine. -/
def Obligations.ScalarCommandsUndoEachOther : Prop :=
  ∀ (s : State) (b : Byte), s.Ready →
    (∃ t u, exec (.enc b) s = .next t ∧ exec (.dec t.result) t = .next u ∧ u.result = b) ∧
    (∃ t u, exec (.dec b) s = .next t ∧ exec (.enc t.result) t = .next u ∧ u.result = b)

/-- R60: the address decoder raises exactly the line of the address, and decoder, AND-OR multiplexer and table select
together compute `Lookup`. -/
def Obligations.GatesComputeLookup : Prop :=
  ∀ (R : Blob) (op : Op) (b : Byte), (∃! j, selectLine b j = true) ∧ lookupUnit R op b = lookup R op b

/-! ### ENC and DEC (spec/40_lookup.md) -/

/-- R58: ENC b is the S word `0 ‖ b`; on a READY instance it answers `encode_table[b]` and changes nothing else; on an
INIT_FAILED one it is refused. -/
def Obligations.EncAnswersEncodeTable : Prop :=
  ∀ (s : State) (b : Byte),
    decode s.config.lanes (.s (BitVec.ofNat 9 b.toNat)) = .ok (.enc b) ∧
    (s.Ready → exec (.enc b) s = .next { s with result := encodeTable s.config.blob b }) ∧
    (s.InitFailed → exec (.enc b) s = .refused (.malformedTable s.status.initCode))

/-- R59: DEC b is the S word `1 ‖ b`; on a READY instance it answers `decode_table[b]` and changes nothing else; on an
INIT_FAILED one it is refused. -/
def Obligations.DecAnswersDecodeTable : Prop :=
  ∀ (s : State) (b : Byte),
    decode s.config.lanes (.s (BitVec.ofNat 9 (256 + b.toNat))) = .ok (.dec b) ∧
    (s.Ready → exec (.dec b) s = .next { s with result := decodeTable s.config.blob b }) ∧
    (s.InitFailed → exec (.dec b) s = .refused (.malformedTable s.status.initCode))

/-- R58, R59 (frame of ENC and DEC): only the result byte may change; every address of the table space reads as before. -/
def Obligations.ScalarFrame : Prop :=
  ∀ (op : Op) (b : Byte) (s t : State), exec (scalarInstr op b) s = .next t →
    t.config = s.config ∧ t.status = s.status ∧ t.out = s.out ∧ t.output = s.output ∧ t.stream = s.stream ∧
    t.draws = s.draws ∧ ∀ a : SWord, rom t.config.blob a = rom s.config.blob a

/-! ### VENC and VDEC (spec/41_vector_beat.md) -/

/-- R68: VENC is the V word with bit 9N = 0; on a READY instance it drives `out_valid` = 1, `out_en = en`, and `encode_table[d_k]` on every enabled lane; it
changes the output ports, what the host has collected and the draw counter, and nothing else; on an INIT_FAILED instance it
is refused. -/
def Obligations.VencDrivesEncodeTable : Prop :=
  ∀ (s : State) (ls : List LaneIn), ls.length = s.config.lanes →
    decode s.config.lanes (.v (packEnables ls * 2 ^ (8 * s.config.lanes) + packData ls)) = .ok (.venc ls) ∧
    (s.Ready → ∃ t, exec (.venc ls) s = .next t ∧ t.out.valid = true ∧ t.out.lanes.map (·.en) = ls.map (·.en) ∧
      (∀ (k : Nat) (d : Byte), ls[k]? = some ⟨true, d⟩ →
        t.out.lanes[k]? = some ⟨true, encodeTable s.config.blob d⟩) ∧
      t = { s with out := t.out, output := t.output, draws := t.draws }) ∧
    (s.InitFailed → exec (.venc ls) s = .refused (.malformedTable s.status.initCode))

/-- R69: as R68, with bit 9N = 1 and `decode_table[d_k]`. -/
def Obligations.VdecDrivesDecodeTable : Prop :=
  ∀ (s : State) (ls : List LaneIn), ls.length = s.config.lanes →
    decode s.config.lanes
      (.v (2 ^ (9 * s.config.lanes) + packEnables ls * 2 ^ (8 * s.config.lanes) + packData ls)) = .ok (.vdec ls) ∧
    (s.Ready → ∃ t, exec (.vdec ls) s = .next t ∧ t.out.valid = true ∧ t.out.lanes.map (·.en) = ls.map (·.en) ∧
      (∀ (k : Nat) (d : Byte), ls[k]? = some ⟨true, d⟩ →
        t.out.lanes[k]? = some ⟨true, decodeTable s.config.blob d⟩) ∧
      t = { s with out := t.out, output := t.output, draws := t.draws }) ∧
    (s.InitFailed → exec (.vdec ls) s = .refused (.malformedTable s.status.initCode))

/-- R67, R68, R69, R77 (frame of VENC, VDEC, ENCODE, DECODE): the constants, the scalar result and what the host presents
are unchanged, every address of the table space reads as before, and what the host had collected is kept. -/
def Obligations.BeatAndStreamFrame : Prop :=
  ∀ (s t : State) (ls : List LaneIn) (x : List Byte),
    exec (.venc ls) s = .next t ∨ exec (.vdec ls) s = .next t ∨
      exec (.encode x) s = .next t ∨ exec (.decode x) s = .next t →
    t.config = s.config ∧ t.status = s.status ∧ t.result = s.result ∧ t.stream = s.stream ∧
    s.output <+: t.output ∧ ∀ a : SWord, rom t.config.blob a = rom s.config.blob a

/-- R70: the output of an enabled lane depends on `op` and its own byte only: two beats of the same `op` on instances with
the same `BLOB`, with any numbers of lanes, any other lanes and any histories, agree on any two enabled lanes with equal
bytes. -/
def Obligations.LaneDependsOnlyOnItsByte : Prop :=
  ∀ (op : Op) (s₁ s₂ t₁ t₂ : State) (ls₁ ls₂ : List LaneIn) (j k : Nat) (d : Byte),
    s₁.config.blob = s₂.config.blob →
    exec (beatInstr op ls₁) s₁ = .next t₁ → exec (beatInstr op ls₂) s₂ = .next t₂ →
    ls₁[j]? = some ⟨true, d⟩ → ls₂[k]? = some ⟨true, d⟩ →
    ∃ v, t₁.out.lanes[j]? = some ⟨true, v⟩ ∧ t₂.out.lanes[k]? = some ⟨true, v⟩

/-- R71: what a disabled lane carries reaches nothing a host may read: of two beats with the same enables and the same bytes
on the enabled lanes, one completes or stops exactly when the other does, with the same reason, and `out_valid`,
`out_en`, the data of the enabled lanes and the output sequence agree. Nothing is said of the data of a disabled lane, which
is `any8` (U1). -/
def Obligations.DisabledLaneInputIsIgnored : Prop :=
  ∀ (op : Op) (s : State) (ls₁ ls₂ : List LaneIn),
    List.Forall₂ (fun l₁ l₂ => l₁.en = l₂.en ∧ (l₁.en = true → l₁.d = l₂.d)) ls₁ ls₂ →
    (∀ f, exec (beatInstr op ls₁) s = .fault f ↔ exec (beatInstr op ls₂) s = .fault f) ∧
    (∀ r, exec (beatInstr op ls₁) s = .refused r ↔ exec (beatInstr op ls₂) s = .refused r) ∧
    ((∃ t₁, exec (beatInstr op ls₁) s = .next t₁) ↔ ∃ t₂, exec (beatInstr op ls₂) s = .next t₂) ∧
    (∀ t₁ t₂, exec (beatInstr op ls₁) s = .next t₁ → exec (beatInstr op ls₂) s = .next t₂ →
      t₁.out.valid = t₂.out.valid ∧ t₁.output = t₂.output ∧
      t₁.out.lanes.map (fun l => (l.en, if l.en then l.d else 0)) =
        t₂.out.lanes.map (fun l => (l.en, if l.en then l.d else 0)))

/-- R72: `out_en = en`; the output list of a beat is the lookups of its input list, in order, and both have length
`popcount(en)`; the host's output sequence grows by exactly that list. -/
def Obligations.BeatNeitherAddsNorDropsBytes : Prop :=
  ∀ (op : Op) (s t : State) (ls : List LaneIn), exec (beatInstr op ls) s = .next t →
    t.out.lanes.map (·.en) = ls.map (·.en) ∧
    portBytes t.out = (beatInput ls).map (opTable s.config.blob op) ∧
    (portBytes t.out).length = enabledLanes ls ∧ (beatInput ls).length = enabledLanes ls ∧
    t.output = s.output ++ portBytes t.out

/-- R51: a beat with no lane enabled is legal and contributes no byte, whatever its lanes carry. -/
def Obligations.EmptyBeatContributesNothing : Prop :=
  ∀ (op : Op) (s : State) (ls : List LaneIn), ls.length = s.config.lanes → (∀ l ∈ ls, l.en = false) → s.Ready →
    ∃ t, exec (beatInstr op ls) s = .next t ∧ portBytes t.out = [] ∧ t.output = s.output

/-- R74: with `LANES` = 1 a beat with `en[0]` = 1 delivers exactly what ENC, or DEC, answers. -/
def Obligations.OneLaneBeatIsScalarCommand : Prop :=
  ∀ (s : State) (b : Byte), s.config.lanes = 1 → s.Ready →
    (∃ t u, exec (.venc [⟨true, b⟩]) s = .next t ∧ exec (.enc b) s = .next u ∧
      portBytes t.out = [encodeTable s.config.blob b] ∧ u.result = encodeTable s.config.blob b) ∧
    (∃ t u, exec (.vdec [⟨true, b⟩]) s = .next t ∧ exec (.dec b) s = .next u ∧
      portBytes t.out = [decodeTable s.config.blob b] ∧ u.result = decodeTable s.config.blob b)

/-- R75: in state INIT_FAILED a presented beat drives `out_valid` = 0 and `out_en[k]` = 0 in every lane, and its outcome is
the refusal `MalformedTable(code)`. -/
def Obligations.InitFailedBeatIsRefused : Prop :=
  ∀ (op : Op) (s : State) (ls : List LaneIn), s.InitFailed → ls.length = s.config.lanes →
    exec (beatInstr op ls) s = .refused (.malformedTable s.status.initCode) ∧
    (∀ draws, (evaluate s.config draws (some (op, ls))).valid = false ∧
      (evaluate s.config draws (some (op, ls))).lanes.map (·.en) = List.replicate s.config.lanes false)

/-- U12 of spec/93_implementation_defined.md, with R21 (that code 1 is among the pairs that cannot occur: log 14): a host
that reads any pair but (1, 0), (0, 2), (0, 3) and (0, 4) on the `STATUS` pins is looking at broken hardware, which is the
fault; no state of the model shows such a pair, and no command and no step faults. -/
def Obligations.BrokenStatusFaults : Prop :=
  (∀ pins : Status,
    (pins ∈ [⟨true, 0⟩, ⟨false, 2⟩, ⟨false, 3⟩, ⟨false, 4⟩] → readStatus pins = .ok pins) ∧
    (pins ∉ [⟨true, 0⟩, ⟨false, 2⟩, ⟨false, 3⟩, ⟨false, 4⟩] → readStatus pins = .error (.brokenStatus pins))) ∧
  (∀ s : State, readStatus s.status = .ok s.status) ∧
  (∀ (i : Instr) (s : State) (f : Fault), exec i s ≠ .fault f ∧ step s ≠ .fault f)

/-- The model's choice (log 13): a lane list that is not one entry per lane is no V command of the instance. -/
def Obligations.WrongLaneCountIsRefused : Prop :=
  ∀ (op : Op) (s : State) (ls : List LaneIn), ls.length ≠ s.config.lanes →
    exec (beatInstr op ls) s = .refused (.wrongLaneCount s.config.lanes ls.length)

/-- R76 (that idle is a step at all is the model's choice, log 11): while nothing is presented, `out_valid` = 0 and every
`out_en[k]` = 0, and nothing is recorded. -/
def Obligations.IdleDeliversNothing : Prop :=
  ∀ (s : State) (rest : List Drive), (s.stream = [] ∧ rest = []) ∨ s.stream = .idle :: rest →
    ∃ t, step s = .next t ∧ t.out.valid = false ∧
      t.out.lanes.map (·.en) = List.replicate s.config.lanes false ∧
      t = { s with out := t.out, draws := t.draws, stream := rest }

/-! ### ENCODE and DECODE (spec/42_stream.md) -/

/-- R77: on a READY instance ENCODE x delivers `map (b -> encode_table[b]) x` and DECODE x delivers
`map (b -> decode_table[b]) x`, for every N; on an INIT_FAILED instance a sequence that presents a beat is refused. -/
def Obligations.EncodeAndDecodeMapTheTables : Prop :=
  ∀ (s : State) (x : List Byte),
    (s.Ready → ∃ t, exec (.encode x) s = .next t ∧ t.output = s.output ++ x.map (encodeTable s.config.blob)) ∧
    (s.Ready → ∃ t, exec (.decode x) s = .next t ∧ t.output = s.output ++ x.map (decodeTable s.config.blob)) ∧
    (s.InitFailed → x ≠ [] →
      exec (.encode x) s = .refused (.malformedTable s.status.initCode) ∧
      exec (.decode x) s = .refused (.malformedTable s.status.initCode))

/-- R80: each delivers exactly as many bytes as it was given. -/
def Obligations.StreamPreservesLength : Prop :=
  ∀ (s t : State) (x : List Byte), exec (.encode x) s = .next t ∨ exec (.decode x) s = .next t →
    t.output.length = s.output.length + x.length

/-- R81: the empty sequence presents no beat and delivers nothing. -/
def Obligations.EmptySequencePresentsNoBeat : Prop :=
  (∀ (n : Nat) (pad : Nat → Byte), 1 ≤ n → canonicalBeats n pad [] = []) ∧
  (∀ s : State, s.Ready → exec (.encode []) s = .next s ∧ exec (.decode []) s = .next s)

/-- R82: decoding what was encoded, and encoding what was decoded, gives the sequence back. -/
def Obligations.RoundTripRestoresSequence : Prop :=
  ∀ (s : State) (x : List Byte), s.Ready →
    (∃ t u, exec (.encode x) s = .next t ∧ exec (.decode (t.output.drop s.output.length)) t = .next u ∧
      u.output = t.output ++ x) ∧
    (∃ t u, exec (.decode x) s = .next t ∧ exec (.encode (t.output.drop s.output.length)) t = .next u ∧
      u.output = t.output ++ x)

/-- R86: the output sequence is the same for every `LANES`, and for every history of the instance. -/
def Obligations.LaneCountIsInvisible : Prop :=
  ∀ (s₁ s₂ : State) (x : List Byte), s₁.Ready → s₂.Ready → s₁.config.blob = s₂.config.blob →
    (∃ t₁ t₂, exec (.encode x) s₁ = .next t₁ ∧ exec (.encode x) s₂ = .next t₂ ∧
      t₁.output.drop s₁.output.length = t₂.output.drop s₂.output.length) ∧
    (∃ t₁ t₂, exec (.decode x) s₁ = .next t₁ ∧ exec (.decode x) s₂ = .next t₂ ∧
      t₁.output.drop s₁.output.length = t₂.output.drop s₂.output.length)

/-- R84: a sequence may be cut anywhere and its pieces run one after the other. -/
def Obligations.CutSequencesJoin : Prop :=
  ∀ (s : State) (x y : List Byte), s.Ready →
    (∃ t u v, exec (.encode (x ++ y)) s = .next t ∧ exec (.encode x) s = .next u ∧ exec (.encode y) u = .next v ∧
      t.output = v.output) ∧
    (∃ t u v, exec (.decode (x ++ y)) s = .next t ∧ exec (.decode x) s = .next u ∧ exec (.decode y) u = .next v ∧
      t.output = v.output)

/-- R87: all byte values in ascending order read the table out, which is a permutation of the byte values. -/
def Obligations.AscendingBytesReadTheTableOut : Prop :=
  ∀ s : State, s.Ready →
    (∃ t, exec (.encode allBytes) s = .next t ∧ t.output = s.output ++ s.config.blob.toList.take 256) ∧
    (∃ t, exec (.decode allBytes) s = .next t ∧ t.output = s.output ++ s.config.blob.toList.drop 256) ∧
    (s.config.blob.toList.take 256).Perm allBytes ∧ (s.config.blob.toList.drop 256).Perm allBytes

/-- R78: the canonical packing has `ceil(len/N)` beats of N lanes; position i travels in beat `i div N`, lane `i mod N`;
every other lane is disabled. -/
def Obligations.CanonicalPackingPlacesEveryByte : Prop :=
  ∀ (n : Nat) (pad : Nat → Byte) (x : List Byte), 1 ≤ n →
    (canonicalBeats n pad x).length = (x.length + n - 1) / n ∧
    (∀ b ∈ canonicalBeats n pad x, b.length = n) ∧
    (∀ (i : Nat) (v : Byte), x[i]? = some v →
      ∃ b, (canonicalBeats n pad x)[i / n]? = some b ∧ b[i % n]? = some ⟨true, v⟩) ∧
    (∀ (j k : Nat) (b : List LaneIn) (l : LaneIn), (canonicalBeats n pad x)[j]? = some b → b[k]? = some l →
      (l.en = true ↔ j * n + k < x.length))

/-- R85: any packing whose enabled bytes spell x, read beat by beat and lane 0 upward, delivers the lookups of x. -/
def Obligations.AnyOrderPreservingPackingDelivers : Prop :=
  ∀ (s : State) (bs : List (List LaneIn)) (x : List Byte), s.Ready → (∀ b ∈ bs, b.length = s.config.lanes) →
    (bs.map beatInput).flatten = x →
    (∃ t, runBeats execVenc bs s = .next t ∧ t.output = s.output ++ x.map (encodeTable s.config.blob)) ∧
    (∃ t, runBeats execVdec bs s = .next t ∧ t.output = s.output ++ x.map (decodeTable s.config.blob))

/-- R54, R56: presenting the V words of the canonical packing one step at a time is ENCODE x, or DECODE x: the same next
state, or the same stop. -/
def Obligations.PresentingTheBeatsIsThePseudoOperation : Prop :=
  ∀ (s : State) (x : List Byte) (rest : List Drive),
    Host.Core.run Sys2Proof.core (hostBeats x s).length
        (withStream ((hostBeats x s).map (fun b => .cmd (.v (vWord s.config.lanes .enc b))) ++ rest) s)
      = exec (.encode x) (withStream rest s) ∧
    Host.Core.run Sys2Proof.core (hostBeats x s).length
        (withStream ((hostBeats x s).map (fun b => .cmd (.v (vWord s.config.lanes .dec b))) ++ rest) s)
      = exec (.decode x) (withStream rest s)

/-! ### The whole machine -/

/-- R56: a step runs the command the presented word decodes to, with the host gone on to the rest of what it presents. -/
def Obligations.StepRunsThePresentedCommand : Prop :=
  ∀ (s : State) (w : CmdWord) (rest : List Drive) (i : Instr), s.stream = .cmd w :: rest →
    decode s.config.lanes w = .ok i → step s = exec i (withStream rest s)

/-- R22, R23, R26: every step keeps the invariant: `STATUS = Check(BLOB)`, output ports of N lanes, and no output enable
without `out_valid`. -/
def Obligations.StepKeepsInvariant : Prop :=
  ∀ s t : State, s.Inv → step s = .next t → t.Inv

/-- R22, R27, R30: no command and no run of any length changes `ROM`, `LANES` or `STATUS`. -/
def Obligations.ConstantsNeverChange : Prop :=
  (∀ (i : Instr) (s t : State), exec i s = .next t → t.config = s.config ∧ t.status = s.status) ∧
  (∀ (k : Nat) (s t : State), Host.Core.run Sys2Proof.core k s = .next t → t.config = s.config ∧ t.status = s.status)

/-- R24, R83: what a command answers depends on the command and the instance's constants only, not on what ran before: in
two states of the same instance it delivers the same bytes, answers the same result byte and drives the same valid
output lanes. -/
def Obligations.NoHiddenState : Prop :=
  ∀ (i : Instr) (s₁ s₂ t₁ : State), s₁.config = s₂.config → exec i s₁ = .next t₁ →
    ∃ (t₂ : State) (z : List Byte), exec i s₂ = .next t₂ ∧ t₁.output = s₁.output ++ z ∧ t₂.output = s₂.output ++ z ∧
      (∀ op b, i = scalarInstr op b → t₁.result = t₂.result) ∧
      (∀ op ls, i = beatInstr op ls → t₁.out.valid = t₂.out.valid ∧
        t₁.out.lanes.map (fun l => (l.en, if l.en then l.d else 0)) =
          t₂.out.lanes.map (fun l => (l.en, if l.en then l.d else 0)))

/-- R79, R89, R119: a READY instance answers everything a host drives it with, without a stop, in one evaluation each;
the output sequence is the lookups of the enabled lanes of each beat, in the order presented, whatever other beats, scalar
lookups or idle evaluations lie between. -/
def Obligations.ReadyRunCollectsEveryBeat : Prop :=
  ∀ s : State, s.Ready → (∀ d ∈ s.stream, driveFits s.config.lanes d) →
    ∃ t, Host.Core.run Sys2Proof.core s.stream.length s = .next t ∧ t.stream = [] ∧
      t.output = s.output ++ (s.stream.map (driveOutput s.config)).flatten

/-- R97, R98: on an INIT_FAILED instance a run is refused at the first command presented, and stays refused: however many
steps are asked for, it never delivers. -/
def Obligations.InitFailedRunNeverDelivers : Prop :=
  ∀ (s : State) (m k : Nat) (w : CmdWord) (rest : List Drive), s.InitFailed →
    s.stream = List.replicate m .idle ++ .cmd w :: rest → driveFits s.config.lanes (.cmd w) → m < k →
    Host.Core.run Sys2Proof.core k s = .refused (.malformedTable s.status.initCode) ∧ ¬ Delivers s k

/-- R99, R62: in state READY no command stops, for any operand value, any enables and any sequence. -/
def Obligations.ReadyCommandsNeverStop : Prop :=
  ∀ (i : Instr) (s : State), s.Ready → i.wf s.config.lanes = true → ∃ t, exec i s = .next t
end

