-- ==== Sys2Proof/Laws/Ports.lean ====
section
/-! SUPPORT. What the output function answers: the idle ports, and the ports of a beat (spec/41_vector_beat.md R67,
R75, R76), with the bytes a host takes from each (R72). -/

namespace Sys2Proof.Laws
open Sys2Proof.Machine

@[simp] theorem quietPorts_valid (n d : Nat) : (quietPorts n d).valid = false := rfl

@[simp] theorem quietPorts_length (n d : Nat) : (quietPorts n d).lanes.length = n := by
  simp [quietPorts]

theorem quietPorts_lane_disabled {n d : Nat} {l : LaneOut} (h : l ∈ (quietPorts n d).lanes) : l.en = false := by
  simp only [quietPorts, List.mem_map] at h
  obtain ⟨k, -, rfl⟩ := h
  rfl

@[simp] theorem portBytes_quiet (n d : Nat) : portBytes (quietPorts n d) = [] := rfl

theorem laneOut_enabled (R : Blob) (op : Op) (draw : Nat) (b : Byte) :
    laneOut R op draw { en := true, d := b } = { en := true, d := lookup R op b } := rfl

theorem laneOut_disabled (R : Blob) (op : Op) (draw : Nat) (b : Byte) :
    laneOut R op draw { en := false, d := b } = { en := false, d := Config.any8 draw } := rfl

@[simp] theorem laneOut_en (R : Blob) (op : Op) (draw : Nat) (l : LaneIn) : (laneOut R op draw l).en = l.en := by
  obtain ⟨en, d⟩ := l
  cases en <;> rfl

@[simp] theorem laneOuts_length (R : Blob) (op : Op) (draw : Nat) (ls : List LaneIn) :
    (laneOuts R op draw ls).length = ls.length := by
  induction ls generalizing draw with
  | nil => rfl
  | cons l ls ih => simp [laneOuts, ih]

theorem laneOuts_getElem? (R : Blob) (op : Op) (draw : Nat) (ls : List LaneIn) (k : Nat) :
    (laneOuts R op draw ls)[k]? = ls[k]?.map (laneOut R op (draw + k)) := by
  induction ls generalizing draw k with
  | nil => simp [laneOuts]
  | cons l ls ih =>
    cases k with
    | zero => simp [laneOuts]
    | succ k => simp [laneOuts, ih, Nat.add_assoc, Nat.add_comm 1 k]

theorem evaluate_idle (c : Config) (draws : Nat) :
    evaluate c draws none = quietPorts c.lanes draws := rfl

theorem evaluate_beat_ok {c : Config} (draws : Nat) (op : Op) (ls : List LaneIn) (h : c.status.initOk = true) :
    evaluate c draws (some (op, ls)) = { valid := true, lanes := laneOuts c.blob op draws ls } := by
  simp [evaluate, h]

theorem evaluate_beat_failed {c : Config} (draws : Nat) (op : Op) (ls : List LaneIn)
    (h : c.status.initOk = false) : evaluate c draws (some (op, ls)) = quietPorts c.lanes draws := by
  simp [evaluate, h]

end Sys2Proof.Laws
end

