-- ==== Sys2Proof/Laws/State.lean ====
section
/-! SUPPORT. One lemma per field per update of the state, each true by `rfl`, so that no proof unfolds a record
update. -/

namespace Sys2Proof.Laws
open Sys2Proof.Machine

section CommitLookup
variable (op : Op) (b : Byte) (s : State)

@[simp] theorem commitLookup_config : (commitLookup op b s).config = s.config := rfl
@[simp] theorem commitLookup_status : (commitLookup op b s).status = s.status := rfl
@[simp] theorem commitLookup_out : (commitLookup op b s).out = s.out := rfl
@[simp] theorem commitLookup_result : (commitLookup op b s).result = lookup s.config.blob op b := rfl
@[simp] theorem commitLookup_output : (commitLookup op b s).output = s.output := rfl
@[simp] theorem commitLookup_stream : (commitLookup op b s).stream = s.stream := rfl
@[simp] theorem commitLookup_draws : (commitLookup op b s).draws = s.draws := rfl
end CommitLookup

section CommitBeat
variable (op : Op) (ls : List LaneIn) (s : State)

@[simp] theorem commitBeat_config : (commitBeat op ls s).config = s.config := rfl
@[simp] theorem commitBeat_status : (commitBeat op ls s).status = s.status := rfl
@[simp] theorem commitBeat_out :
    (commitBeat op ls s).out = evaluate s.config s.draws (some (op, ls)) := rfl
@[simp] theorem commitBeat_result : (commitBeat op ls s).result = s.result := rfl
@[simp] theorem commitBeat_output :
    (commitBeat op ls s).output = s.output ++ portBytes (evaluate s.config s.draws (some (op, ls))) := rfl
@[simp] theorem commitBeat_stream : (commitBeat op ls s).stream = s.stream := rfl
@[simp] theorem commitBeat_draws : (commitBeat op ls s).draws = s.draws + s.config.lanes := rfl
end CommitBeat

section IdleEvaluation
variable (s : State)

@[simp] theorem idleEvaluation_config : (idleEvaluation s).config = s.config := rfl
@[simp] theorem idleEvaluation_status : (idleEvaluation s).status = s.status := rfl
@[simp] theorem idleEvaluation_out : (idleEvaluation s).out = quietPorts s.config.lanes s.draws := rfl
@[simp] theorem idleEvaluation_result : (idleEvaluation s).result = s.result := rfl
@[simp] theorem idleEvaluation_output : (idleEvaluation s).output = s.output := rfl
@[simp] theorem idleEvaluation_stream : (idleEvaluation s).stream = s.stream := rfl
@[simp] theorem idleEvaluation_draws : (idleEvaluation s).draws = s.draws + s.config.lanes := rfl
end IdleEvaluation

section WithStream
variable (rest : List Drive) (s : State)

@[simp] theorem withStream_config : (withStream rest s).config = s.config := rfl
@[simp] theorem withStream_status : (withStream rest s).status = s.status := rfl
@[simp] theorem withStream_out : (withStream rest s).out = s.out := rfl
@[simp] theorem withStream_result : (withStream rest s).result = s.result := rfl
@[simp] theorem withStream_output : (withStream rest s).output = s.output := rfl
@[simp] theorem withStream_stream : (withStream rest s).stream = rest := rfl
@[simp] theorem withStream_draws : (withStream rest s).draws = s.draws := rfl
end WithStream

section Built
variable (c : Config)

@[simp] theorem built_config : (State.built c).config = c := rfl
@[simp] theorem built_status : (State.built c).status = c.status := rfl
@[simp] theorem built_out : (State.built c).out = quietPorts c.lanes 0 := rfl
@[simp] theorem built_draws : (State.built c).draws = c.lanes + 1 := rfl
@[simp] theorem built_output : (State.built c).output = [] := rfl
@[simp] theorem built_stream : (State.built c).stream = [] := rfl
end Built

end Sys2Proof.Laws
end

