-- ==== Sys2Proof/Laws/Table.lean ====
section
/-! SUPPORT. A blob and its bytes, and what an instance's `STATUS` is: the check of its blob, one of four pairs. -/

namespace Sys2Proof.Laws
open Sys2Proof.Machine

/-- The bytes of a blob are that blob again (R13, R31). -/
@[simp] theorem toBlob?_toList (R : Blob) : toBlob? R.toList = some R := by
  simp only [toBlob?, Vector.length_toList, dif_pos]
  rfl

@[simp] theorem romOf_blob (R : Blob) : (romOf R).blob = R := by
  unfold romOf
  split <;> rfl

/-- `check` of the bytes of a blob is the check of its tables (R93). -/
@[simp] theorem check_toList (R : Blob) : check R.toList = checkTables R := by simp [check]

/-- `STATUS = Check(BLOB)` (R22), of every configuration there is. -/
theorem status_eq_check (c : Config) : c.status = statusOf (checkTables c.blob) := by
  obtain ⟨R | R, n⟩ := c
  · rename_i h
    simp [Config.status, Rom.status, Config.blob, Rom.blob, statusOf, h, codeBits, readyStatus]
  · rfl

/-- The check of 512 bytes never reports code 1 (R92). -/
theorem checkTables_code (R : Blob) : (checkTables R).code = .ok ∨ (checkTables R).code = .encNotBijection ∨
    (checkTables R).code = .decNotBijection ∨ (checkTables R).code = .notInverse := by
  unfold checkTables
  repeat' split
  all_goals simp

/-- The pair on the pins of any instance is one of the four that can occur (R21, R92). -/
theorem status_legal (c : Config) : legalStatus c.status = true := by
  rw [status_eq_check]
  obtain h | h | h | h := checkTables_code c.blob <;> simp [statusOf, h, codeBits, legalStatus]

end Sys2Proof.Laws
end

