-- ==== Sys2Proof/Laws/Ops.lean ====
section
/-! SUPPORT. One lemma per shared operation that says everything it can do; proofs cite these and do not unfold the
operation. -/

namespace Sys2Proof.Laws
open Sys2Proof.Machine

/-- READY is: `init_ok` = 1 (R21). -/
theorem ready_iff (s : State) : s.Ready ↔ s.status.initOk = true := by
  refine ⟨fun h => by rw [h]; rfl, fun h => ?_⟩
  have hl : legalStatus s.status = true := status_legal s.config
  unfold State.Ready
  cases e : s.status with
  | mk ok code =>
    rw [e] at h hl
    simp only at h
    subst h
    simpa [legalStatus, readyStatus] using hl

theorem initOk_of_ready {s : State} (h : s.Ready) : s.status.initOk = true := (ready_iff s).1 h

/-- Every state is READY or INIT_FAILED (R12, R21). -/
theorem ready_or_initFailed (s : State) : s.Ready ∨ s.InitFailed := by
  rw [ready_iff, State.InitFailed]
  exact (Bool.eq_false_or_eq_true _)

theorem whenReady_of_ready {s : State} (t : State) (h : s.Ready) : whenReady s t = .next t := by
  simp [whenReady, initOk_of_ready h]

theorem whenReady_of_initFailed {s : State} (t : State) (h : s.InitFailed) :
    whenReady s t = .refused (.malformedTable s.status.initCode) := by
  simp [whenReady, takeMalformedTable, show s.status.initOk = false from h]

/-- A command answers a next state only on a READY instance, and then the state it was given. -/
theorem whenReady_next {s t u : State} (h : whenReady s t = .next u) : s.Ready ∧ u = t := by
  obtain hr | hf := ready_or_initFailed s
  · rw [whenReady_of_ready t hr] at h
    exact ⟨hr, by cases h; rfl⟩
  · rw [whenReady_of_initFailed t hf] at h
    cases h

theorem readStatus_state (s : State) : readStatus s.status = .ok s.status :=
  if_pos (status_legal s.config)

theorem runLookup_next {op : Op} {b : Byte} {s t : State} (h : runLookup op b s = .next t) :
    s.Ready ∧ t = commitLookup op b s := whenReady_next h

theorem runBeat_next {op : Op} {ls : List LaneIn} {s t : State} (h : runBeat op ls s = .next t) :
    ls.length = s.config.lanes ∧ s.Ready ∧ t = commitBeat op ls s := by
  unfold runBeat at h
  split at h
  · exact ⟨‹_›, whenReady_next h⟩
  · cases h

theorem runBeat_of_ready {op : Op} {ls : List LaneIn} {s : State} (hn : ls.length = s.config.lanes) (h : s.Ready) :
    runBeat op ls s = .next (commitBeat op ls s) := by
  simp [runBeat, hn, whenReady_of_ready _ h]

theorem runBeat_of_initFailed {op : Op} {ls : List LaneIn} {s : State} (hn : ls.length = s.config.lanes)
    (h : s.InitFailed) : runBeat op ls s = .refused (.malformedTable s.status.initCode) := by
  simp [runBeat, hn, whenReady_of_initFailed _ h]

theorem runBeats_cons_next {run : List LaneIn → State → Host.Outcome State Fault Refusal} {b : List LaneIn}
    {bs : List (List LaneIn)} {s u : State} (h : runBeats run (b :: bs) s = .next u) :
    ∃ t, run b s = .next t ∧ runBeats run bs t = .next u := by
  simp only [runBeats] at h
  split at h
  · exact ⟨_, ‹_›, h⟩
  · cases h
  · cases h

/-- Whatever relation every beat keeps, and that composes, a whole run of beats keeps. -/
theorem runBeats_induction {run : List LaneIn → State → Host.Outcome State Fault Refusal} {P : State → State → Prop}
    (refl : ∀ s, P s s) (trans : ∀ s t u, P s t → P t u → P s u) (hrun : ∀ b s t, run b s = .next t → P s t)
    (bs : List (List LaneIn)) (s u : State) (h : runBeats run bs s = .next u) : P s u := by
  induction bs generalizing s with
  | nil => cases h; exact refl _
  | cons b bs ih =>
    obtain ⟨t, ht, hu⟩ := runBeats_cons_next h
    exact trans _ _ _ (hrun b s t ht) (ih t hu)

/-- Everything a step that answers a next state can be: an idle evaluation, or a decoded command run. -/
theorem step_next {s t : State} (h : step s = .next t) :
    (s.stream = [] ∧ t = idleEvaluation s) ∨
    (∃ rest, s.stream = .idle :: rest ∧ t = idleEvaluation (withStream rest s)) ∨
    (∃ w rest i, s.stream = .cmd w :: rest ∧ decode s.config.lanes w = .ok i ∧
      exec i (withStream rest s) = .next t) := by
  unfold step at h
  split at h
  · exact .inl ⟨‹_›, by cases h; rfl⟩
  · exact .inr (.inl ⟨_, ‹_›, by cases h; rfl⟩)
  · split at h
    · exact .inr (.inr ⟨_, _, _, ‹_›, ‹_›, h⟩)
    · cases h

end Sys2Proof.Laws
end

