-- ==== Sys2Proof/Laws/PerInstr.lean ====
section
/-! SUPPORT. A statement about every command as syntax, one lemma per constructor: the word of a well-formed command has
no bit beyond its format's width (spec/30_encoding.md R43, R44, R46). -/

namespace Sys2Proof.Laws.WordFits

/-- A V word of an instance with n lanes spells 9n + 1 bits. -/
def Statement (i : Instr) : Prop :=
  ∀ n w, i.wf n = true → encode n i = some (.v w) → w < 2 ^ (9 * n + 1)

theorem packEnables_lt (ls : List LaneIn) : packEnables ls < 2 ^ ls.length := by
  induction ls with
  | nil => simp [packEnables]
  | cons l ls ih =>
    have := l.en.toNat_le
    simp only [packEnables, List.length_cons, Nat.pow_succ]
    omega

theorem packData_lt (ls : List LaneIn) : packData ls < 2 ^ (8 * ls.length) := by
  induction ls with
  | nil => simp [packData]
  | cons l ls ih =>
    have h := l.d.isLt
    have e : 2 ^ (8 * (l :: ls).length) = 256 * 2 ^ (8 * ls.length) := by
      rw [List.length_cons, Nat.mul_succ, Nat.pow_add, Nat.mul_comm]
    rw [e, packData]
    omega

theorem vWord_lt (op : Op) (ls : List LaneIn) : vWord ls.length op ls < 2 ^ (9 * ls.length + 1) := by
  have he := packEnables_lt ls
  have hd := packData_lt ls
  have ho : op.bit.toNat ≤ 1 := by cases op <;> decide
  have e : 2 ^ (9 * ls.length) = 2 ^ ls.length * 2 ^ (8 * ls.length) := by
    rw [← Nat.pow_add]; congr 1; omega
  have hm : (packEnables ls + 1) * 2 ^ (8 * ls.length) ≤ 2 ^ (9 * ls.length) := by
    rw [e]; exact Nat.mul_le_mul_right _ he
  have hb : op.bit.toNat * 2 ^ (9 * ls.length) ≤ 1 * 2 ^ (9 * ls.length) := Nat.mul_le_mul_right _ ho
  rw [Nat.add_mul, Nat.one_mul] at hm
  have h2 : 2 ^ (9 * ls.length + 1) = 2 ^ (9 * ls.length) + 2 ^ (9 * ls.length) := by rw [Nat.pow_succ, Nat.mul_two]
  rw [vWord, h2]
  exact Nat.lt_of_lt_of_le
    (by rw [Nat.add_assoc]; exact Nat.add_lt_add_left (Nat.add_lt_add_left hd _) _)
    (Nat.add_le_add (hb.trans_eq (Nat.one_mul _)) hm)

theorem enc (b : Byte) : Statement (.enc b) := fun _ _ _ h => by simp [Sys2Proof.encode] at h

theorem dec (b : Byte) : Statement (.dec b) := fun _ _ _ h => by simp [Sys2Proof.encode] at h

theorem venc (ls : List LaneIn) : Statement (.venc ls) := fun n w hw h => by
  obtain rfl : ls.length = n := by simpa [Instr.wf] using hw
  obtain rfl : vWord ls.length .enc ls = w := by simpa [Sys2Proof.encode] using h
  exact vWord_lt .enc ls

theorem vdec (ls : List LaneIn) : Statement (.vdec ls) := fun n w hw h => by
  obtain rfl : ls.length = n := by simpa [Instr.wf] using hw
  obtain rfl : vWord ls.length .dec ls = w := by simpa [Sys2Proof.encode] using h
  exact vWord_lt .dec ls

theorem encode (x : List Byte) : Statement (.encode x) := fun _ _ _ h => by simp [Sys2Proof.encode] at h

theorem decode (x : List Byte) : Statement (.decode x) := fun _ _ _ h => by simp [Sys2Proof.encode] at h

end Sys2Proof.Laws.WordFits
end

