-- ==== Sys2Proof/Machine/Text.lean ====
section
/-! DEFINITION. The text syntax of listings and test vectors (spec/30_encoding.md R53, R54). It carries no meaning
beyond the fields it names; no step reads or writes it. -/

namespace Sys2Proof.Machine

/-- A hexadecimal digit, capital as the spec writes them. -/
def hexDigit (n : Nat) : Char := if n < 10 then Char.ofNat (48 + n) else Char.ofNat (55 + n)

/-- The low `digits` hexadecimal digits of v, most significant first. -/
def hexDigits (digits v : Nat) : String :=
  String.ofList ((List.range digits).map fun j => hexDigit (v / 16 ^ (digits - 1 - j) % 16))

/-- A byte: `0x48`. -/
def byteText (b : Byte) : String := "0x" ++ hexDigits 2 b.toNat

/-- Entries with `, ` between them. -/
def commaText : List String → String
  | []      => ""
  | [t]     => t
  | t :: ts => t ++ ", " ++ commaText ts

/-- A list: `[a, b, c]`. -/
def listText (ts : List String) : String := "[" ++ commaText ts ++ "]"

/-- `en`: binary, most significant lane first; hexadecimal from sixteen lanes on (log 19). -/
def enablesText (ls : List LaneIn) : String :=
  if ls.length < 16 then
    "0b" ++ String.ofList ((ls.map fun l => if l.en then '1' else '0').reverse)
  else "0x" ++ hexDigits ((ls.length + 3) / 4) (packEnables ls)

/-- The operands of a V command (R53): the enables, and the lane list, lane 0 first. -/
def beatText (ls : List LaneIn) : String := enablesText ls ++ ", " ++ listText (ls.map fun l => byteText l.d)

/-- A command as R53 and R54 write it. -/
def instrText : Instr → String
  | .enc b    => "ENC " ++ byteText b
  | .dec b    => "DEC " ++ byteText b
  | .venc ls  => "VENC " ++ beatText ls
  | .vdec ls  => "VDEC " ++ beatText ls
  | .encode x => "ENCODE " ++ listText (x.map byteText)
  | .decode x => "DECODE " ++ listText (x.map byteText)

/-- The output lanes of a beat, with `--` for a disabled lane (R53). -/
def portsText (o : OutPorts) : String := listText (o.lanes.map fun l => if l.en then byteText l.d else "--")

end Sys2Proof.Machine
end

