-- ==== Sys2Proof/Tests/Slice0.lean ====
section
/-! SUPPORT. Tests of the model against spec/95_test_vectors.md and the worked examples of the rules, and a witness for
every statement that has hypotheses. The tables are the spec's own fixtures (decision D24), not the real constant. -/

namespace Sys2Proof.Tests
open Sys2Proof.Machine Sys2Proof.Laws

/-! ### Fixtures (spec/95_test_vectors.md section 1) -/

theorem rot_undone (b : Byte) : b + 1 + 255 = b := by simp [BitVec.add_assoc]
theorem rot_redone (b : Byte) : b + 255 + 1 = b := by simp [BitVec.add_assoc]
theorem xor_undone (b : Byte) : b ^^^ 0xA5 ^^^ 0xA5 = b := by simp
theorem aff_undone (b : Byte) : 205 * (5 * b + 17) + 99 = b := by
  apply BitVec.eq_of_toNat_eq
  have := b.isLt
  simp [BitVec.toNat_add, BitVec.toNat_mul]
  omega
theorem aff_redone (b : Byte) : 5 * (205 * b + 99) + 17 = b := by
  apply BitVec.eq_of_toNat_eq
  have := b.isLt
  simp [BitVec.toNat_add, BitVec.toNat_mul]
  omega

/-- FIX_ROT1 as a permutation. -/
def rotPerm : Equiv.Perm Byte := ⟨fun b => b + 1, fun b => b + 255, rot_undone, rot_redone⟩

/-- FIX_XORA5 as a permutation. -/
def xorPerm : Equiv.Perm Byte := ⟨fun b => b ^^^ 0xA5, fun b => b ^^^ 0xA5, xor_undone, xor_undone⟩

/-- FIX_AFF as a permutation. -/
def affPerm : Equiv.Perm Byte := ⟨fun b => 5 * b + 17, fun b => 205 * b + 99, aff_undone, aff_redone⟩

def fixRot : Blob := tableBlob (fun b => b + 1) (fun b => b + 255)
def fixXor : Blob := tableBlob (fun b => b ^^^ 0xA5) (fun b => b ^^^ 0xA5)
def fixAff : Blob := tableBlob (fun b => 5 * b + 17) (fun b => 205 * b + 99)
def fixId  : Blob := tableBlob (fun b => b) (fun b => b)

/-- BAD_DUP: offset 0x005 holds 0x05. -/
def badDup : Blob := tableBlob (fun b => if b = 5 then 5 else b + 1) (fun b => b + 255)

/-- BAD_INV: two bijections that are not inverse. -/
def badInv : Blob := tableBlob (fun b => b + 1) (fun b => b ^^^ 0xA5)

/-- BAD_BOTH: BAD_DUP with offset 0x100 holding 0x00. -/
def badBoth : Blob := tableBlob (fun b => if b = 5 then 5 else b + 1) (fun b => if b = 0 then 0 else b + 255)

/-- K8 -/
theorem test_check_bad_inv : checkTables badInv = { code := .notInverse, info := some 0x00 } := by
  have he : Function.Surjective (encodeTable badInv) := by
    intro v; rw [badInv]; simp only [encodeTable_tableBlob]; exact ⟨v + 255, rot_redone v⟩
  have hd : Function.Surjective (decodeTable badInv) := by
    intro v; rw [badInv]; simp only [decodeTable_tableBlob]; exact ⟨v ^^^ 0xA5, xor_undone v⟩
  have hn : leastNotUndone badInv = some 0 := by decide
  rw [checkTables, leastMissing_encodeHalf he, leastMissing_decodeHalf hd, hn]

/-- A READY instance of a permutation fixture with extra + 1 lanes. -/
def ready (σ : Equiv.Perm Byte) (extra : Nat) : State := .built { rom := permRom σ, extraLanes := extra }

/-- The INIT_FAILED instance of BAD_INV (P4). -/
def failed (extra : Nat) : State :=
  .built { rom := .malformed badInv (by rw [test_check_bad_inv]; decide), extraLanes := extra }

theorem ready_is_ready (σ : Equiv.Perm Byte) (extra : Nat) : (ready σ extra).Ready := rfl
theorem failed_status (extra : Nat) : (failed extra).status = ⟨false, 4⟩ := congrArg statusOf test_check_bad_inv
theorem failed_is_failed (extra : Nat) : (failed extra).InitFailed := congrArg Status.initOk (failed_status extra)

/-- What a test looks at: the result byte, or the bytes collected, of a next state. -/
def resultOf : Host.Outcome State Fault Refusal → Option Byte
  | .next s => some s.result
  | _       => none

def outputOf : Host.Outcome State Fault Refusal → Option (List Byte)
  | .next s => some s.output
  | _       => none

def enablesOf : Host.Outcome State Fault Refusal → Option (Bool × List Bool)
  | .next s => some (s.out.valid, s.out.lanes.map (·.en))
  | _       => none

def refusalOf : Host.Outcome State Fault Refusal → Option Refusal
  | .refused r => some r
  | _          => none

/-! ### WellFormed: an ill-formed term for each check (R46) -/

theorem test_wf_refuses_venc_of_one_lane_on_two : (Instr.venc [⟨true, 0x48⟩]).wf 2 = false := by decide
theorem test_wf_refuses_vdec_of_three_lanes_on_two :
    (Instr.vdec [⟨true, 0x48⟩, ⟨true, 0x49⟩, ⟨false, 0x00⟩]).wf 2 = false := by decide

/-! ### Decoding (words written out by the spec) -/

/-- T8: `ENC 0x48`, S word `0 01001000`. -/
theorem test_decode_enc : decode 1 (.s 0b001001000) = .ok (.enc 0x48) := by decide
/-- R59: `DEC 0x79`, S word `1 01111001`. -/
theorem test_decode_dec : decode 1 (.s 0b101111001) = .ok (.dec 0x79) := by decide
/-- B10: 0x0F6C6C6548 = `0 1111 01101100 01101100 01100101 01001000`. -/
theorem test_decode_venc :
    decode 4 (.v 0b0111101101100011011000110010101001000) =
      .ok (.venc [⟨true, 0x48⟩, ⟨true, 0x65⟩, ⟨true, 0x6C⟩, ⟨true, 0x6C⟩]) := by decide
/-- B7: `VDEC 0b01, [0x16, 0xFF]` on two lanes, V word 0x5FF16. -/
theorem test_decode_vdec : decode 2 (.v 0x5FF16) = .ok (.vdec [⟨true, 0x16⟩, ⟨false, 0xFF⟩]) := by decide
/-- B15, encoded. -/
theorem test_encode_vdec :
    encode 4 (.vdec [⟨false, 0x99⟩, ⟨true, 0x00⟩, ⟨true, 0x01⟩, ⟨false, 0x99⟩]) = some (.v 0x1699010099) := by decide
/-- R54: a pseudo-operation has no word of its own. -/
theorem test_encode_pseudo : encode 4 (.encode [0x48]) = none ∧ encode 4 (.decode [0x48]) = none := by decide
/-- The rows ENC and DEC of spec/opcode_table.json. -/
theorem test_decodeTableWord_scalar :
    decodeTableWord 16 0x048 = some (.enc 0x48) ∧ decodeTableWord 16 0x148 = some (.dec 0x48) ∧
    decodeTableWord 16 0x200 = none := by decide
/-- The rows VENC (N = 4) and VDEC (N = 1, 2) of spec/opcode_table.json. -/
theorem test_decodeTableWord_vector :
    decodeTableWord 40 0x0100000021 = some (.venc [⟨true, 0x21⟩, ⟨false, 0⟩, ⟨false, 0⟩, ⟨false, 0⟩]) ∧
    decodeTableWord 24 0x71611 = some (.vdec [⟨true, 0x11⟩, ⟨true, 0x16⟩]) ∧
    decodeTableWord 10 0x301 = some (.vdec [⟨true, 0x01⟩]) := by decide

/-- R68, R46: the ports of B10: `op` = 0, `in_en` = 0b1111, `in_data` = 0x6C6C6548; while idle `in_valid` = 0. -/
theorem test_ports_of_v_word :
    inPorts 4 [.cmd (.v 0x0F6C6C6548)] = some ⟨0, 0xF, 0x6C6C6548⟩ ∧ inPorts 4 [.idle] = none := by decide

/-! ### The table and its check (R13, R93) -/

/-- The row of FIX_AFF in "Selected entries". -/
theorem test_rom_fixAff : (rom fixAff 0x000, rom fixAff 0x048, rom fixAff 0x100, rom fixAff 0x101) =
    (0x11, 0x79, 0x63, 0x30) := by decide
/-- K1 to K4: the valid fixtures. -/
theorem test_check_valid_fixtures :
    (checkTables fixRot).code = .ok ∧ (checkTables fixXor).code = .ok ∧
    (checkTables fixAff).code = .ok ∧ (checkTables fixId).code = .ok :=
  ⟨congrArg CheckResult.code (checkTables_permBlob rotPerm), congrArg CheckResult.code (checkTables_permBlob xorPerm),
   congrArg CheckResult.code (checkTables_permBlob affPerm), congrArg CheckResult.code (checkTables_permBlob (Equiv.refl Byte))⟩
/-- K5: 511 bytes; no instance. -/
theorem test_build_bad_length :
    (build (List.replicate 511 0) 4).check = { code := .blobLength, info := some 511 } ∧
    (build (List.replicate 511 0) 4).instanceBuilt = none := by
  have h : toBlob? (List.replicate 511 0) = none := by
    rw [toBlob?, dif_neg]; rw [List.length_replicate]; decide
  simp only [build, check, h, List.length_replicate, and_self]
/-- K6 -/
theorem test_check_bad_dup : checkTables badDup = { code := .encNotBijection, info := some 0x06 } := by decide
/-- K9: the encode half is tested first. -/
theorem test_check_bad_both : checkTables badBoth = { code := .encNotBijection, info := some 0x06 } := by decide
/-- X4 and R21: of the eight codes with each `init_ok`, exactly four pairs can stand on the pins. -/
theorem test_legal_status_pairs :
    ((List.range 8).map fun c => legalStatus ⟨true, BitVec.ofNat 3 c⟩) = [true, false, false, false, false, false, false, false] ∧
    ((List.range 8).map fun c => legalStatus ⟨false, BitVec.ofNat 3 c⟩) = [false, false, true, true, true, false, false, false] := by
  decide

/-! ### Commands (sections 4 to 6 of spec/95_test_vectors.md) -/

/-- T28, T23 -/
theorem test_enc : resultOf (exec (.enc 0x48) (ready affPerm 0)) = some 0x79 ∧
    resultOf (exec (.enc 0xFF) (ready affPerm 0)) = some 0x0C := by decide
/-- T29, T22 -/
theorem test_dec : resultOf (exec (.dec 0x48) (ready affPerm 0)) = some 0x0B ∧
    resultOf (exec (.dec 0x00) (ready affPerm 0)) = some 0x63 := by decide
/-- B13: sparse enables. -/
theorem test_venc_sparse :
    outputOf (exec (.venc [⟨false, 0x00⟩, ⟨true, 0x48⟩, ⟨false, 0x00⟩, ⟨true, 0xFF⟩]) (ready affPerm 3)) = some [0x79, 0x0C] ∧
    enablesOf (exec (.venc [⟨false, 0x00⟩, ⟨true, 0x48⟩, ⟨false, 0x00⟩, ⟨true, 0xFF⟩]) (ready affPerm 3)) =
      some (true, [false, true, false, true]) := by decide
/-- B8: the empty beat. -/
theorem test_venc_empty : outputOf (exec (.venc [⟨false, 0x12⟩, ⟨false, 0x34⟩]) (ready affPerm 1)) = some [] := by decide
/-- B15: wraps. -/
theorem test_vdec_wraps :
    outputOf (exec (.vdec [⟨false, 0x99⟩, ⟨true, 0x00⟩, ⟨true, 0x01⟩, ⟨false, 0x99⟩]) (ready rotPerm 3)) =
      some [0xFF, 0x00] := by decide
/-- B9 -/
theorem test_vdec_full :
    outputOf (exec (.vdec [⟨true, 0x11⟩, ⟨true, 0x16⟩]) (ready affPerm 1)) = some [0x00, 0x01] := by decide
/-- P1: "Hello, RPack!" on four lanes, with a tail beat. -/
theorem test_encode_hello :
    outputOf (exec (.encode [0x48, 0x65, 0x6C, 0x6C, 0x6F, 0x2C, 0x20, 0x52, 0x50, 0x61, 0x63, 0x6B, 0x21]) (ready affPerm 3)) =
      some [0x79, 0x0A, 0x2D, 0x2D, 0x3C, 0xED, 0xB1, 0xAB, 0xA1, 0xF6, 0x00, 0x28, 0xB6] := by decide
/-- Q1 -/
theorem test_encode_empty : outputOf (exec (.encode []) (ready affPerm 3)) = some [] := by decide
/-- Q15 at N = 2 (7 beats). -/
theorem test_decode_hello :
    outputOf (exec (.decode [0x48, 0x65, 0x6C, 0x6C, 0x6F, 0x2C, 0x20, 0x52, 0x50, 0x61, 0x63, 0x6B, 0x21]) (ready affPerm 1)) =
      some [0x0B, 0x44, 0xDF, 0xDF, 0x46, 0x9F, 0x03, 0x0D, 0x73, 0x10, 0xAA, 0x12, 0xD0] := by decide
/-- Q5 to Q16: 13 bytes are 13, 7, 4, 1 beats at N = 1, 2, 4, 16. -/
theorem test_beatCount : [1, 2, 4, 16].map (beatCount · 13) = [13, 7, 4, 1] := by decide

/-! ### Stops and the step -/

/-- P4, beat 0. -/
theorem test_failed_beat_is_refused :
    refusalOf (exec (.venc [⟨true, 0x00⟩]) (failed 0)) = some (.malformedTable 4) := by
  have h := runBeat_of_initFailed (op := .enc) (ls := [⟨true, 0x00⟩]) (s := failed 0) rfl (failed_is_failed 0)
  rw [failed_status] at h
  exact congrArg refusalOf h
/-- U12: code 5 on the pins; and (0, 2), which can stand there. -/
theorem test_read_status :
    readStatus ⟨false, 5⟩ = .error (.brokenStatus ⟨false, 5⟩) ∧ readStatus ⟨false, 2⟩ = .ok ⟨false, 2⟩ := by decide
/-- R11: the idle lanes that go with a wider word are drawn afresh, so the draw counter goes past them. -/
theorem test_withFetchWord_draws :
    ((ready affPerm 0).withFetchWord 40 0).draws = (ready affPerm 0).draws + 4 := by decide
/-- B2, as the step runs it: the V word 0x301 on the ports of a one-lane instance. -/
theorem test_step_runs_v_word :
    outputOf (step { ready rotPerm 0 with stream := [.cmd (.v 0x301)] }) = some [0x00] := by decide
/-- B20: nothing presented. -/
theorem test_step_idle : enablesOf (step (ready affPerm 3)) = some (false, [false, false, false, false]) := by decide
/-- The first word after reset is run, whatever `BLOB` and `LANES` are. -/
theorem test_reset_runs_first_word :
    (∃ t, step (State.reset.withFetchWord 16 0x048) = .next t) ∧ (∃ t, step (State.reset.withFetchWord 16 0x148) = .next t) ∧
    (∃ t, step (State.reset.withFetchWord 40 0x0F6C6C6548) = .next t) := ⟨⟨_, rfl⟩, ⟨_, rfl⟩, ⟨_, rfl⟩⟩

/-! ### Text syntax (R53) -/

theorem test_text_enc : instrText (.enc 0x48) = "ENC 0x48" := by decide
theorem test_text_venc :
    instrText (.venc [⟨true, 0x21⟩, ⟨false, 0x00⟩, ⟨false, 0x00⟩, ⟨false, 0x00⟩]) = "VENC 0b0001, [0x21, 0x00, 0x00, 0x00]" := by
  decide
theorem test_text_ports :
    portsText ⟨true, [⟨true, 0xB6⟩, ⟨false, 0⟩, ⟨false, 0⟩, ⟨false, 0⟩]⟩ = "[0xB6, --, --, --]" := by decide
theorem test_text_wide_enables : enablesText (List.replicate 16 ⟨true, 0⟩) = "0xFFFF" := by decide

/-! ### Witnesses: a concrete state and operands that meet the hypotheses of each statement -/

/-- The beat of B10. -/
def beat4 : List LaneIn := [⟨true, 0x48⟩, ⟨true, 0x65⟩, ⟨true, 0x6C⟩, ⟨true, 0x6C⟩]

/-- The beat of B13. -/
def sparse4 : List LaneIn := [⟨false, 0x00⟩, ⟨true, 0x48⟩, ⟨false, 0x00⟩, ⟨true, 0xFF⟩]


/-- A READY instance of FIX_AFF meets the invariant. -/
theorem witness_inv_and_ready : (ready affPerm 3).Inv ∧ (ready affPerm 3).Ready :=
  ⟨⟨status_eq_check _, rfl, fun _ _ h => quietPorts_lane_disabled h⟩, rfl⟩
/-- So does the INIT_FAILED instance of BAD_INV. -/
theorem witness_inv_and_failed : (failed 3).Inv ∧ (failed 3).InitFailed :=
  ⟨⟨status_eq_check _, rfl, fun _ _ h => quietPorts_lane_disabled h⟩, failed_is_failed 3⟩

theorem witness_DecodeOfEncodeIsIdentity :
    ((Instr.venc beat4).wf 4 = true ∧ encode 4 (.venc beat4) = some (.v 0x0F6C6C6548)) ∧
    ((Instr.dec 0xFF).wf 4 = true ∧ encode 4 (.dec 0xFF) = some (.s 0x1FF)) := by decide
theorem witness_EncodeOfDecodeIsIdentity :
    decode 4 (.v 0x1FFFFFFFFF) = .ok (.vdec (List.replicate 4 ⟨true, 0xFF⟩)) := by decide
theorem witness_EveryWordIsACommand : 0x1FFFFFFFFF < 2 ^ (9 * 4 + 1) := by decide
theorem witness_VWordFieldPositions : beat4[3]? = some ⟨true, 0x6C⟩ ∧ 7 < 8 := by decide
theorem witness_BusesCarryLaneZeroLowest :
    0x0F6C6C6548 < 2 ^ (9 * 4 + 1) ∧ 3 < 4 ∧ ([⟨true, 0x79⟩] : List LaneOut)[0]? = some ⟨true, 0x79⟩ := by decide
theorem witness_TooWideNumberIsRefused :
    ({ ready affPerm 3 with stream := [.cmd (.v 0x2000000000)] } : State).stream = .cmd (.v 0x2000000000) :: [] ∧
    2 ^ (9 * (ready affPerm 3).config.lanes + 1) ≤ 0x2000000000 := by decide
/-- Both directions of R20 on FIX_AFF, and a raw blob of 512 bytes. -/
theorem witness_OneDirectionOfInverseSuffices :
    (∀ b, affPerm.symm (affPerm b) = b) ∧ fixAff.toList.length = 512 := ⟨affPerm.symm_apply_apply, Vector.length_toList⟩
theorem witness_CheckReportsFirstFailure_length : (List.replicate 511 (0 : Byte)).length ≠ 512 := by
  rw [List.length_replicate]; decide
theorem witness_CheckReportsFirstFailure_encode :
    toBlob? badDup.toList = some badDup ∧ (∀ i, encodeTable badDup i ≠ 6) ∧
    ∀ u : Byte, u < 6 → ∃ i, encodeTable badDup i = u := by
  refine ⟨toBlob?_toList badDup, ?_⟩
  simp only [badDup, encodeTable_tableBlob]
  refine ⟨fun i h => ?_, fun u hu => ⟨u + 255, ?_⟩⟩
  · split at h <;> bv_omega
  · rw [if_neg (by bv_omega), rot_redone]
theorem witness_CheckReportsFirstFailure_decode :
    let R := tableBlob (fun b => b + 1) (fun b => if b = 0 then 0 else b + 255)
    (∀ u, ∃ i, encodeTable R i = u) ∧ (∀ i, decodeTable R i ≠ 0xFF) ∧ ∀ u : Byte, u < 0xFF → ∃ i, decodeTable R i = u := by
  simp only [encodeTable_tableBlob, decodeTable_tableBlob]
  refine ⟨fun u => ⟨u + 255, rot_redone u⟩, fun i h => ?_, fun u hu => ⟨u + 1, ?_⟩⟩
  · split at h <;> bv_omega
  · rw [if_neg (by bv_omega), rot_undone]
theorem witness_CheckReportsFirstFailure_inverse :
    (∀ u, ∃ i, encodeTable badInv i = u) ∧ (∀ u, ∃ i, decodeTable badInv i = u) ∧
    decodeTable badInv (encodeTable badInv 0) ≠ 0 ∧ ∀ u : Byte, u < 0 → decodeTable badInv (encodeTable badInv u) = u := by
  simp only [badInv, encodeTable_tableBlob, decodeTable_tableBlob]
  exact ⟨fun u => ⟨u + 255, rot_redone u⟩, fun u => ⟨u ^^^ 0xA5, xor_undone u⟩, by decide, fun u hu => by bv_omega⟩
theorem witness_CheckReportsFirstFailure_ok :
    (∀ u, ∃ i, encodeTable fixAff i = u) ∧ (∀ u, ∃ i, decodeTable fixAff i = u) ∧
    ∀ b, decodeTable fixAff (encodeTable fixAff b) = b := by
  simp only [fixAff, encodeTable_tableBlob, decodeTable_tableBlob]
  exact ⟨fun u => ⟨_, aff_redone u⟩, fun u => ⟨_, aff_undone u⟩, aff_undone⟩
theorem witness_BuiltStatusShowsValidity : ∃ s, (build fixAff.toList 4).instanceBuilt = some s :=
  ⟨State.built { rom := romOf fixAff, extraLanes := 3 }, by
    simp only [build, toBlob?_toList]⟩
theorem witness_BuilderReportsAndBuilds :
    (fixAff.toList.length = 512 ∧ 1 ≤ 1) ∧ ((List.replicate 513 (0 : Byte)).length ≠ 512 ∨ 0 = 0) := 
  ⟨⟨Vector.length_toList, le_refl 1⟩, .inr rfl⟩
theorem witness_EncAnswersEncodeTable : (ready affPerm 0).Ready ∧ (failed 0).InitFailed := ⟨rfl, failed_is_failed 0⟩
theorem witness_DecAnswersDecodeTable : (ready rotPerm 3).Ready ∧ (failed 3).InitFailed := ⟨rfl, failed_is_failed 3⟩
theorem witness_ScalarFrame : ∃ t, exec (scalarInstr .dec 0xFF) (ready affPerm 0) = .next t := ⟨_, rfl⟩
theorem witness_VencDrivesEncodeTable :
    beat4.length = (ready affPerm 3).config.lanes ∧ (ready affPerm 3).Ready ∧ beat4.length = (failed 3).config.lanes ∧
    (failed 3).InitFailed ∧ beat4[0]? = some ⟨true, 0x48⟩ := ⟨rfl, rfl, rfl, failed_is_failed 3, rfl⟩
theorem witness_VdecDrivesDecodeTable :
    sparse4.length = (ready xorPerm 3).config.lanes ∧ (ready xorPerm 3).Ready ∧ sparse4.length = (failed 3).config.lanes ∧
    (failed 3).InitFailed ∧ sparse4[3]? = some ⟨true, 0xFF⟩ := ⟨rfl, rfl, rfl, failed_is_failed 3, rfl⟩
theorem witness_BeatAndStreamFrame :
    (∃ t, exec (.venc beat4) (ready affPerm 3) = .next t) ∧ (∃ t, exec (.vdec beat4) (ready affPerm 3) = .next t) ∧
    (∃ t, exec (.encode [0x48]) (ready affPerm 3) = .next t) ∧ (∃ t, exec (.decode []) (ready affPerm 3) = .next t) :=
  ⟨⟨_, rfl⟩, ⟨_, rfl⟩, ⟨_, rfl⟩, ⟨_, rfl⟩⟩
/-- The byte 0x48 in lane 1 of four and in the one lane of a one-lane instance. -/
theorem witness_LaneDependsOnlyOnItsByte :
    (ready affPerm 3).config.blob = (ready affPerm 0).config.blob ∧
    (∃ t, exec (beatInstr .enc sparse4) (ready affPerm 3) = .next t) ∧
    (∃ t, exec (beatInstr .enc [⟨true, 0x48⟩]) (ready affPerm 0) = .next t) ∧
    sparse4[1]? = some ⟨true, 0x48⟩ ∧ ([⟨true, 0x48⟩] : List LaneIn)[0]? = some ⟨true, 0x48⟩ :=
  ⟨rfl, ⟨_, rfl⟩, ⟨_, rfl⟩, rfl, rfl⟩
/-- B11 and B12: two beats that differ on a disabled lane, and both complete; on an INIT_FAILED instance both are refused. -/
theorem witness_DisabledLaneInputIsIgnored :
    List.Forall₂ (fun l₁ l₂ : LaneIn => l₁.en = l₂.en ∧ (l₁.en = true → l₁.d = l₂.d))
      [⟨true, 0x21⟩, ⟨false, 0x00⟩] [⟨true, 0x21⟩, ⟨false, 0xDE⟩] ∧
    (∃ t, exec (beatInstr .enc [⟨true, 0x21⟩, ⟨false, 0x00⟩]) (ready affPerm 1) = .next t) ∧
    (∃ t, exec (beatInstr .enc [⟨true, 0x21⟩, ⟨false, 0xDE⟩]) (ready affPerm 1) = .next t) ∧
    ∃ r, exec (beatInstr .enc [⟨true, 0x21⟩, ⟨false, 0x00⟩]) (failed 1) = .refused r :=
  ⟨by simp, ⟨_, rfl⟩, ⟨_, rfl⟩, ⟨.malformedTable (failed 1).status.initCode,
    runBeat_of_initFailed (op := .enc) (ls := [⟨true, 0x21⟩, ⟨false, 0x00⟩]) (s := failed 1) rfl (failed_is_failed 1)⟩⟩
theorem witness_BeatNeitherAddsNorDropsBytes :
    ∃ t, exec (beatInstr .dec sparse4) (ready affPerm 3) = .next t := ⟨_, rfl⟩
theorem witness_EmptyBeatContributesNothing :
    (List.replicate 4 (⟨false, 0x55⟩ : LaneIn)).length = (ready rotPerm 3).config.lanes ∧
    (∀ l ∈ List.replicate 4 (⟨false, 0x55⟩ : LaneIn), l.en = false) ∧ (ready rotPerm 3).Ready := ⟨rfl, by simp, rfl⟩
theorem witness_OneLaneBeatIsScalarCommand : (ready rotPerm 0).config.lanes = 1 ∧ (ready rotPerm 0).Ready := ⟨rfl, rfl⟩
theorem witness_InitFailedBeatIsRefused : (failed 3).InitFailed ∧ beat4.length = (failed 3).config.lanes := ⟨failed_is_failed 3, rfl⟩
/-- Both cases, each at a pair next to the other's: (0, 4) and (0, 1), and (1, 4). -/
theorem witness_BrokenStatusFaults :
    (⟨false, 4⟩ : Status) ∈ [⟨true, 0⟩, ⟨false, 2⟩, ⟨false, 3⟩, ⟨false, 4⟩] ∧
    (⟨false, 1⟩ : Status) ∉ [⟨true, 0⟩, ⟨false, 2⟩, ⟨false, 3⟩, ⟨false, 4⟩] ∧
    (⟨true, 4⟩ : Status) ∉ [⟨true, 0⟩, ⟨false, 2⟩, ⟨false, 3⟩, ⟨false, 4⟩] := by decide
/-- A valid blob on two instances of different width, a malformed one, and a command that runs. -/
theorem witness_StatusIsTheCheckOfTheBlob :
    (ready affPerm 0).config.blob = (ready affPerm 3).config.blob ∧ (ready affPerm 0).Ready ∧ (failed 0).InitFailed ∧
    ∃ t, exec (.enc 0x48) (ready affPerm 0) = .next t := ⟨rfl, rfl, failed_is_failed 0, ⟨_, rfl⟩⟩
theorem witness_WrongLaneCountIsRefused : beat4.length ≠ (ready affPerm 0).config.lanes := by decide
theorem witness_IdleDeliversNothing :
    (ready affPerm 3).stream = [] ∧
    ({ ready affPerm 3 with stream := [.idle, .cmd (.s 0x048)] } : State).stream = .idle :: [.cmd (.s 0x048)] := ⟨rfl, rfl⟩
theorem witness_EncodeAndDecodeMapTheTables :
    (ready affPerm 3).Ready ∧ (failed 3).InitFailed ∧ [(0x48 : Byte)] ≠ [] := ⟨rfl, failed_is_failed 3, by decide⟩
theorem witness_StreamPreservesLength :
    (∃ t, exec (.encode [0x48, 0x65]) (ready affPerm 0) = .next t) ∧ ∃ t, exec (.decode [0x48]) (ready affPerm 0) = .next t :=
  ⟨⟨_, rfl⟩, ⟨_, rfl⟩⟩
theorem witness_EmptySequencePresentsNoBeat : 1 ≤ 1 ∧ (ready (Equiv.refl Byte) 3).Ready := ⟨le_refl 1, rfl⟩
theorem witness_LaneCountIsInvisible :
    (ready affPerm 3).Ready ∧ (ready affPerm 0).Ready ∧ (ready affPerm 3).config.blob = (ready affPerm 0).config.blob :=
  ⟨rfl, rfl, rfl⟩
theorem witness_CutSequencesJoin : (ready affPerm 3).Ready := rfl
theorem witness_AscendingBytesReadTheTableOut : (ready affPerm 3).Ready := rfl
theorem witness_CanonicalPackingPlacesEveryByte :
    1 ≤ 4 ∧ ([0x48, 0x65, 0x6C, 0x6C, 0x6F] : List Byte)[4]? = some 0x6F ∧
    (canonicalBeats 4 (fun _ => 0) [0x48, 0x65, 0x6C, 0x6C, 0x6F])[1]? =
      some [⟨true, 0x6F⟩, ⟨false, 0⟩, ⟨false, 0⟩, ⟨false, 0⟩] := by decide
/-- The packing of "Packing independence" in section 6. -/
theorem witness_AnyOrderPreservingPackingDelivers :
    let bs : List (List LaneIn) := [[⟨false, 0⟩, ⟨false, 0⟩, ⟨true, 0x48⟩, ⟨true, 0x65⟩], List.replicate 4 ⟨false, 0⟩,
      [⟨true, 0x6C⟩, ⟨true, 0x6C⟩, ⟨true, 0x6F⟩, ⟨false, 0⟩]]
    (ready affPerm 3).Ready ∧ (∀ b ∈ bs, b.length = (ready affPerm 3).config.lanes) ∧
    (bs.map beatInput).flatten = [0x48, 0x65, 0x6C, 0x6C, 0x6F] := ⟨rfl, by decide, by decide⟩
theorem witness_StepRunsThePresentedCommand :
    ({ ready rotPerm 0 with stream := [.cmd (.v 0x301)] } : State).stream = .cmd (.v 0x301) :: [] ∧
    decode (ready rotPerm 0).config.lanes (.v 0x301) = .ok (.vdec [⟨true, 0x01⟩]) := by decide
theorem witness_LookupIsBijective : (ready affPerm 3).Ready := rfl
theorem witness_ScalarCommandsUndoEachOther : (ready affPerm 3).Ready := rfl
theorem witness_RoundTripRestoresSequence : (ready affPerm 3).Ready := rfl
theorem witness_StepKeepsInvariant : (ready affPerm 3).Inv ∧ ∃ t, step (ready affPerm 3) = .next t :=
  ⟨witness_inv_and_ready.1, ⟨_, rfl⟩⟩
theorem witness_ConstantsNeverChange :
    (∃ t, exec (.enc 0x00) (ready affPerm 3) = .next t) ∧
    ∃ t, Host.Core.run Sys2Proof.core 2 (ready affPerm 3) = .next t := ⟨⟨_, rfl⟩, ⟨_, rfl⟩⟩
/-- Two states of one instance that differ in everything else. -/
theorem witness_NoHiddenState :
    let s₂ : State := { ready affPerm 3 with out := ⟨true, []⟩, result := 7, output := [1, 2], stream := [.idle], draws := 99 }
    (ready affPerm 3).config = s₂.config ∧
    ∃ t, exec (.venc beat4) (ready affPerm 3) = .next t := ⟨rfl, ⟨_, rfl⟩⟩
/-- P3 in small: a VENC beat, a VDEC beat, a scalar lookup and an idle evaluation. -/
theorem witness_ReadyRunCollectsEveryBeat :
    let s : State := { ready xorPerm 1 with stream := [.cmd (.v 0x30100), .cmd (.v 0x75AA5), .idle, .cmd (.s 0x1FF)] }
    s.Ready ∧ ∀ d ∈ s.stream, driveFits s.config.lanes d := by
  refine ⟨rfl, ?_⟩
  simp [ready, State.built, driveFits, Config.lanes]
theorem witness_InitFailedRunNeverDelivers :
    let s : State := { failed 0 with stream := [.idle, .cmd (.v 0x100), .cmd (.v 0x301)] }
    s.InitFailed ∧ s.stream = List.replicate 1 .idle ++ .cmd (.v 0x100) :: [.cmd (.v 0x301)] ∧
    driveFits s.config.lanes (.cmd (.v 0x100)) ∧ 1 < 2 := by
  refine ⟨failed_is_failed 0, rfl, ?_, by decide⟩
  simp [failed, State.built, driveFits, Config.lanes]
theorem witness_ReadyCommandsNeverStop :
    (ready affPerm 3).Ready ∧ (Instr.vdec beat4).wf (ready affPerm 3).config.lanes = true := ⟨rfl, by decide⟩

end Sys2Proof.Tests
end

/-! SUPPORT. A blob is its two tables, and the valid blobs are those of the permutations (spec/00_scope.md R7,
spec/10_state.md R14 to R16). -/

namespace Sys2Proof.Proofs
open Sys2Proof.Machine

/-- `Perm` (R15) is the library's bijectivity. -/
theorem perm_iff_bijective (T : Byte → Byte) : Perm T ↔ Function.Bijective T :=
  (Function.bijective_iff_existsUnique T).symm

/-- Two blobs with the same two tables are the same blob: the halves cover all 512 addresses (R14, R29). -/
theorem blob_eq_of_tables_eq {R S : Blob} (he : ∀ b, encodeTable R b = encodeTable S b)
    (hd : ∀ b, decodeTable R b = decodeTable S b) : R = S := by
  refine Vector.ext fun a ha => ?_
  by_cases hlow : a < 256
  · simpa [encodeTable, Nat.mod_eq_of_lt hlow] using he (BitVec.ofNat 8 a)
  · have hb : 256 + (a - 256) % 256 = a := by omega
    simpa [decodeTable, hb] using hd (BitVec.ofNat 8 (a - 256))

/-- Two tables in the relation `Inverse` (R15) are a permutation of the bytes and its inverse. -/
def permOfInverse {E D : Byte → Byte} (h : Inverse E D) : Equiv.Perm Byte where
  toFun     := E
  invFun    := D
  left_inv  := fun b => (h b).1
  right_inv := fun b => (h b).2

/-- A blob with inverse tables is the blob of its encode table (R16). -/
theorem permBlob_permOfInverse {R : Blob} (h : Inverse (encodeTable R) (decodeTable R)) :
    permBlob (permOfInverse h) = R :=
  blob_eq_of_tables_eq (encodeTable_tableBlob _ _) (decodeTable_tableBlob _ _)

@[simp] theorem encodeTable_permBlob (σ : Equiv.Perm Byte) : encodeTable (permBlob σ) = σ :=
  funext (encodeTable_tableBlob σ σ.symm)

@[simp] theorem decodeTable_permBlob (σ : Equiv.Perm Byte) : decodeTable (permBlob σ) = σ.symm :=
  funext (decodeTable_tableBlob σ σ.symm)

/-- The blob of a permutation and its inverse is valid (R16). -/
theorem validTables_permBlob (σ : Equiv.Perm Byte) : ValidTables (permBlob σ) := by
  rw [ValidTables, encodeTable_permBlob, decodeTable_permBlob]
  exact ⟨(perm_iff_bijective σ).2 σ.bijective, (perm_iff_bijective σ.symm).2 σ.symm.bijective,
    fun b => ⟨σ.symm_apply_apply b, σ.apply_symm_apply b⟩⟩

/-- Settles O15: the encode table of a valid blob is the permutation, and a blob is its two tables. -/
theorem validTablesArePermutationBlobs : Obligations.ValidTablesArePermutationBlobs := by
  intro R
  constructor
  · rintro ⟨-, -, hinv⟩
    exact ⟨permOfInverse hinv, (permBlob_permOfInverse hinv).symm⟩
  · rintro ⟨σ, rfl⟩
    exact validTables_permBlob σ

end Sys2Proof.Proofs

/-! SUPPORT. The commands by family: a lookup, a beat or a pseudo-operation, of one of the two operations
(spec/30_encoding.md R45, R49, R54), and the shared operation each one runs. -/

namespace Sys2Proof.Proofs
open Sys2Proof.Machine

/-- The pseudo-operation of an operation (R54). -/
def streamInstr : Op → List Byte → Instr
  | .enc, x => .encode x
  | .dec, x => .decode x

theorem exec_scalarInstr (op : Op) (b : Byte) (s : State) : exec (scalarInstr op b) s = runLookup op b s := by
  cases op <;> rfl

theorem exec_beatInstr (op : Op) (ls : List LaneIn) (s : State) : exec (beatInstr op ls) s = runBeat op ls s := by
  cases op <;> rfl

theorem exec_streamInstr (op : Op) (x : List Byte) (s : State) :
    exec (streamInstr op x) s = runBeats (runBeat op) (hostBeats x s) s := by
  cases op <;> rfl

/-- Every command is a lookup, a beat or a pseudo-operation, of one of the two operations (R49, R54). -/
theorem instr_cases (i : Instr) : (∃ op b, i = scalarInstr op b) ∨ (∃ op ls, i = beatInstr op ls) ∨
    ∃ op x, i = streamInstr op x := by
  cases i with
  | enc b => exact .inl ⟨.enc, b, rfl⟩
  | dec b => exact .inl ⟨.dec, b, rfl⟩
  | venc ls => exact .inr (.inl ⟨.enc, ls, rfl⟩)
  | vdec ls => exact .inr (.inl ⟨.dec, ls, rfl⟩)
  | encode x => exact .inr (.inr ⟨.enc, x, rfl⟩)
  | decode x => exact .inr (.inr ⟨.dec, x, rfl⟩)

theorem scalarInstr_ne_beatInstr (op op' : Op) (b : Byte) (ls : List LaneIn) : scalarInstr op b ≠ beatInstr op' ls := by
  cases op <;> cases op' <;> nofun

theorem streamInstr_ne_scalarInstr (op op' : Op) (x : List Byte) (b : Byte) : streamInstr op x ≠ scalarInstr op' b := by
  cases op <;> cases op' <;> nofun

theorem streamInstr_ne_beatInstr (op op' : Op) (x : List Byte) (ls : List LaneIn) :
    streamInstr op x ≠ beatInstr op' ls := by
  cases op <;> cases op' <;> nofun

end Sys2Proof.Proofs

/-! SUPPORT. What every command and every step keeps: one principle for each, from what the shared operations keep. -/

namespace Sys2Proof.Proofs
open Sys2Proof.Machine Sys2Proof.Laws

/-- A relation between states that every command keeps, shown by its shared operations: one lookup, and one beat of N
lanes, each in state READY (R58, R67, R78). -/
structure KeptByCommands (P : State → State → Prop) : Prop where
  refl   : ∀ s, P s s
  trans  : ∀ s t u, P s t → P t u → P s u
  lookup : ∀ op b s, s.Ready → P s (commitLookup op b s)
  beat   : ∀ op ls s, ls.length = s.config.lanes → s.Ready → P s (commitBeat op ls s)

/-- A relation that every step keeps too: also an idle evaluation, and the host's going on to the rest of its stream. -/
structure KeptBySteps (P : State → State → Prop) : Prop extends KeptByCommands P where
  idle   : ∀ s, P s (idleEvaluation s)
  stream : ∀ rest s, P s (withStream rest s)

section Kept
variable {P : State → State → Prop} {s t : State}

theorem KeptByCommands.runLookup (hP : KeptByCommands P) {op : Op} {b : Byte} (h : runLookup op b s = .next t) :
    P s t := by
  obtain ⟨hr, rfl⟩ := runLookup_next h
  exact hP.lookup op b s hr

theorem KeptByCommands.runBeat (hP : KeptByCommands P) {op : Op} {ls : List LaneIn} (h : runBeat op ls s = .next t) :
    P s t := by
  obtain ⟨hn, hr, rfl⟩ := runBeat_next h
  exact hP.beat op ls s hn hr

theorem KeptByCommands.runBeats (hP : KeptByCommands P) {op : Op} {bs : List (List LaneIn)}
    (h : runBeats (Machine.runBeat op) bs s = .next t) : P s t :=
  runBeats_induction hP.refl hP.trans (fun _ _ _ => hP.runBeat) bs s t h

theorem KeptByCommands.exec (hP : KeptByCommands P) {i : Instr} (h : exec i s = .next t) : P s t := by
  obtain ⟨op, b, rfl⟩ | ⟨op, ls, rfl⟩ | ⟨op, x, rfl⟩ := instr_cases i
  · exact hP.runLookup (exec_scalarInstr op b s ▸ h)
  · exact hP.runBeat (exec_beatInstr op ls s ▸ h)
  · exact hP.runBeats (exec_streamInstr op x s ▸ h)

theorem KeptBySteps.step (hP : KeptBySteps P) (h : step s = .next t) : P s t := by
  obtain ⟨-, rfl⟩ | ⟨rest, -, rfl⟩ | ⟨w, rest, i, -, -, hi⟩ := step_next h
  · exact hP.idle s
  · exact hP.trans _ _ _ (hP.stream rest s) (hP.idle _)
  · exact hP.trans _ _ _ (hP.stream rest s) (hP.exec hi)

theorem run_succ_next {k : Nat} {s t : State} (h : Host.Core.run Sys2Proof.core (k + 1) s = .next t) :
    ∃ u, Machine.step s = .next u ∧ Host.Core.run Sys2Proof.core k u = .next t := by
  simp only [Host.Core.run] at h
  split at h
  · exact ⟨_, ‹_›, h⟩
  · cases h
  · cases h

theorem KeptBySteps.run (hP : KeptBySteps P) (k : Nat) (s t : State)
    (h : Host.Core.run Sys2Proof.core k s = .next t) : P s t := by
  induction k generalizing s with
  | zero => cases h; exact hP.refl _
  | succ k ih =>
    obtain ⟨u, hu, ht⟩ := run_succ_next h
    exact hP.trans _ _ _ (hP.step hu) (ih u ht)
end Kept

/-! ### The configuration (R22, R27, R30) -/

theorem keptBySteps_config : KeptBySteps fun s t => t.config = s.config where
  refl _ := rfl
  trans _ _ _ hst htu := htu.trans hst
  lookup _ _ _ _ := rfl
  beat _ _ _ _ _ := rfl
  idle _ := rfl
  stream _ _ := rfl

theorem exec_config {i : Instr} {s t : State} (h : exec i s = .next t) : t.config = s.config :=
  keptBySteps_config.exec h

theorem run_config {k : Nat} {s t : State} (h : Host.Core.run Sys2Proof.core k s = .next t) : t.config = s.config :=
  keptBySteps_config.run k s t h

/-- `STATUS` is a function of the configuration (R22). -/
theorem status_eq_of_config_eq {s t : State} (h : t.config = s.config) : t.status = s.status :=
  congrArg Config.status h

/-- Settles O48: no step changes the configuration, and `STATUS` is a function of it. -/
theorem constantsNeverChange : Obligations.ConstantsNeverChange :=
  ⟨fun _ _ _ h => ⟨exec_config h, status_eq_of_config_eq (exec_config h)⟩,
    fun _ _ _ h => ⟨run_config h, status_eq_of_config_eq (run_config h)⟩⟩

/-! ### The invariant (R22, R23, R26) -/

/-- Output ports of n lanes (R23), none enabled while `out_valid` = 0 (R26, R75, R76). -/
def PortsWellFormed (n : Nat) (o : OutPorts) : Prop :=
  o.lanes.length = n ∧ (o.valid = false → ∀ l ∈ o.lanes, l.en = false)

/-- The invariant is about the ports only: its first clause holds of every state there is (R22). -/
theorem inv_iff (s : State) : s.Inv ↔ PortsWellFormed s.config.lanes s.out :=
  and_iff_right (status_eq_check s.config)

theorem quietPorts_wellFormed (n draws : Nat) : PortsWellFormed n (quietPorts n draws) :=
  ⟨quietPorts_length n draws, fun _ _ => quietPorts_lane_disabled⟩

theorem evaluate_beat_wellFormed {c : Config} {op : Op} {ls : List LaneIn} (draws : Nat) (hn : ls.length = c.lanes)
    (h : c.status.initOk = true) : PortsWellFormed c.lanes (evaluate c draws (some (op, ls))) := by
  rw [evaluate_beat_ok draws op ls h]
  exact ⟨(laneOuts_length ..).trans hn, nofun⟩

theorem keptBySteps_inv : KeptBySteps fun s t => s.Inv → t.Inv where
  refl _ := id
  trans _ _ _ hst htu := htu ∘ hst
  lookup _ _ _ _ h := h
  beat _ _ s hn hr _ := (inv_iff _).2 (evaluate_beat_wellFormed s.draws hn (initOk_of_ready hr))
  idle s _ := (inv_iff _).2 (quietPorts_wellFormed s.config.lanes s.draws)
  stream _ _ h := h

/-- Settles O47: a step is idle, a lookup or beats; the first and the last leave well-formed ports, and a lookup leaves
them alone. -/
theorem stepKeepsInvariant : Obligations.StepKeepsInvariant :=
  fun _ _ hs h => keptBySteps_inv.step h hs

/-- What the builder makes meets the invariant (R26, R96). -/
theorem inv_built (c : Config) : (State.built c).Inv :=
  (inv_iff _).2 (quietPorts_wellFormed c.lanes 0)

/-- Settles O16: the reset state is a built one whose blob is that of a permutation and its inverse. -/
theorem resetMeetsInvariant : Obligations.ResetMeetsInvariant :=
  ⟨inv_built _, rfl, validTables_permBlob _, rfl⟩

/-! ### No command faults (R62, R99) -/

theorem whenReady_ne_fault (s t : State) (f : Fault) : whenReady s t ≠ .fault f := by
  obtain hr | hf := ready_or_initFailed s
  · rw [whenReady_of_ready t hr]; nofun
  · rw [whenReady_of_initFailed t hf]; nofun

theorem runBeat_ne_fault (op : Op) (ls : List LaneIn) (s : State) (f : Fault) : runBeat op ls s ≠ .fault f := by
  unfold runBeat
  split
  · exact whenReady_ne_fault _ _ f
  · nofun

theorem runBeats_ne_fault (op : Op) (bs : List (List LaneIn)) (s : State) (f : Fault) :
    runBeats (runBeat op) bs s ≠ .fault f := by
  induction bs generalizing s with
  | nil => nofun
  | cons b bs ih =>
    unfold runBeats
    split
    · exact ih _
    · exact absurd ‹_› (runBeat_ne_fault op b s _)
    · nofun

theorem exec_ne_fault (i : Instr) (s : State) (f : Fault) : exec i s ≠ .fault f := by
  obtain ⟨op, b, rfl⟩ | ⟨op, ls, rfl⟩ | ⟨op, x, rfl⟩ := instr_cases i
  · rw [exec_scalarInstr]; exact whenReady_ne_fault s _ f
  · rw [exec_beatInstr]; exact runBeat_ne_fault op ls s f
  · rw [exec_streamInstr]; exact runBeats_ne_fault op _ s f

theorem step_ne_fault (s : State) (f : Fault) : step s ≠ .fault f := by
  unfold step
  split
  · nofun
  · nofun
  · split
    · exact exec_ne_fault _ _ f
    · nofun

/-- The pairs that can occur are the four of R21 and R92. -/
theorem legalStatus_iff_mem (pins : Status) :
    legalStatus pins = true ↔ pins ∈ [⟨true, 0⟩, ⟨false, 2⟩, ⟨false, 3⟩, ⟨false, 4⟩] := by
  obtain ⟨ok, code⟩ := pins
  cases ok <;> simp [legalStatus, or_assoc]

/-- Settles O33: a host's read answers the four pairs that can occur, every state shows one of them, and no shared
operation faults. -/
theorem brokenStatusFaults : Obligations.BrokenStatusFaults := by
  refine ⟨fun pins => ?_, readStatus_state, fun i s f => ⟨exec_ne_fault i s f, step_ne_fault s f⟩⟩
  rw [← legalStatus_iff_mem]
  exact ⟨fun h => if_pos h, fun h => if_neg h⟩

end Sys2Proof.Proofs

/-! SUPPORT. Raw bytes as the two tables, what makes them valid, and what the check of them says (spec/10_state.md R15,
R16, R20 to R22). -/

namespace Sys2Proof.Proofs
open Sys2Proof.Machine Sys2Proof.Laws

/-- Raw bytes are a blob exactly when they are its bytes (R31). -/
theorem toBlob?_eq_some_iff {B : List Byte} {R : Blob} : toBlob? B = some R ↔ R.toList = B := by
  constructor
  · intro h
    unfold toBlob? at h
    split at h
    · cases h; rfl
    · cases h
  · rintro rfl
    exact toBlob?_toList R

/-- A property of 512 raw bytes that holds of a blob's exactly when its tables are valid is their validity (R16). -/
theorem validBlob_iff {B : List Byte} {p : Prop} (h : ∀ R : Blob, R.toList = B → (ValidTables R ↔ p)) :
    ValidBlob B ↔ B.length = 512 ∧ p := by
  constructor
  · rintro ⟨R, hR, hv⟩
    have hB := toBlob?_eq_some_iff.1 hR
    exact ⟨hB ▸ R.length_toList, (h R hB).1 hv⟩
  · rintro ⟨hlen, hp⟩
    exact ⟨⟨⟨B⟩, hlen⟩, dif_pos hlen, (h _ rfl).2 hp⟩

@[simp] theorem validBlob_toList (R : Blob) : ValidBlob R.toList ↔ ValidTables R := by
  simp [ValidBlob]

/-- Blob byte b is entry b of the encode table (R14). -/
@[simp] theorem getElem?_encode (R : Blob) (b : Byte) : R[b.toNat]? = some (encodeTable R b) := by
  have := b.isLt
  simp [encodeTable, show b.toNat < 512 by omega]

/-- Blob byte 256 + b is entry b of the decode table (R14). -/
@[simp] theorem getElem?_decode (R : Blob) (b : Byte) : R[256 + b.toNat]? = some (decodeTable R b) := by
  have := b.isLt
  simp [decodeTable, show 256 + b.toNat < 512 by omega]

/-- On the finitely many bytes, one direction of the inverse relation makes both tables permutations and gives the other
direction (R20). -/
theorem perm_and_inverse_of_leftInverse {E D : Byte → Byte} (h : Function.LeftInverse D E) :
    Perm E ∧ Perm D ∧ Function.RightInverse D E := by
  have hE : Function.Bijective E := Finite.injective_iff_bijective.1 h.injective
  have hD : Function.Bijective D := Finite.surjective_iff_bijective.1 h.surjective
  exact ⟨(perm_iff_bijective E).2 hE, (perm_iff_bijective D).2 hD, h.rightInverse_of_surjective hE.surjective⟩

/-- Tables are valid exactly when the decode table undoes the encode table (R20). -/
theorem validTables_iff_leftInverse (R : Blob) :
    ValidTables R ↔ ∀ b, decodeTable R (encodeTable R b) = b := by
  constructor
  · rintro ⟨-, -, hinv⟩ b
    exact (hinv b).1
  · intro h
    obtain ⟨hE, hD, hinv⟩ := perm_and_inverse_of_leftInverse h
    exact ⟨hE, hD, fun b => ⟨h b, hinv b⟩⟩

/-- Settles O9: on a finite set a left inverse is an inverse; the raw bytes are the two tables. -/
theorem oneDirectionOfInverseSuffices : Obligations.OneDirectionOfInverseSuffices := by
  refine ⟨fun E D h => perm_and_inverse_of_leftInverse h, fun B => validBlob_iff ?_⟩
  rintro R rfl
  simp [validTables_iff_leftInverse]

/-- Settles O10: byte b of the raw bytes is `encodeTable R b` and byte 256 + b is `decodeTable R b`, which turns each
clause into that of `ValidTables`. -/
theorem validBlobIsItsFourClauses : Obligations.ValidBlobIsItsFourClauses := by
  refine fun B => validBlob_iff ?_
  rintro R rfl
  simp [ValidTables, Perm, Inverse, forall_and]

/-! ### `STATUS` and validity (R21, R22) -/

/-- The check that every `b` is undone finds none exactly when the decode table undoes the encode table (R92). -/
theorem leastNotUndone_eq_none_iff (R : Blob) :
    leastNotUndone R = none ↔ ∀ b, decodeTable R (encodeTable R b) = b := by
  simp only [leastNotUndone, List.find?_eq_none, List.mem_range, bne_iff_ne, ne_eq, not_not]
  refine ⟨fun h b => ?_, fun h v _ => h _⟩
  simpa using h b.toNat b.isLt

/-- `Check` passes exactly the valid tables (R94). -/
theorem checkTables_ok_iff (R : Blob) : (checkTables R).code = .ok ↔ ValidTables R := by
  constructor
  · intro h
    rw [validTables_iff_leftInverse, ← leastNotUndone_eq_none_iff]
    unfold checkTables at h
    split at h
    · cases h
    · split at h
      · cases h
      · split at h
        · cases h
        · assumption
  · intro h
    obtain ⟨σ, rfl⟩ := (validTablesArePermutationBlobs R).1 h
    rw [checkTables_permBlob]

theorem statusOf_initOk (r : CheckResult) : (statusOf r).initOk = true ↔ r.code = .ok := by
  obtain ⟨code, info⟩ := r
  cases code <;> simp [statusOf, codeBits]

theorem status_initOk_iff (c : Config) : c.status.initOk = true ↔ ValidTables c.blob := by
  rw [status_eq_check, statusOf_initOk, checkTables_ok_iff]

/-- The engine is READY exactly over a valid blob (R21, R26). -/
theorem ready_iff_validTables (s : State) : s.Ready ↔ ValidTables s.config.blob :=
  (ready_iff s).trans (status_initOk_iff s.config)

theorem initFailed_iff_not_ready (s : State) : s.InitFailed ↔ ¬ s.Ready := by
  rw [ready_iff, State.InitFailed, Bool.not_eq_true]

/-- Settles O12: `STATUS` is the check of the tables by construction, the check passes exactly the valid ones, and no
command changes the configuration. -/
theorem statusIsTheCheckOfTheBlob : Obligations.StatusIsTheCheckOfTheBlob := by
  refine ⟨fun s => ?_, fun s₁ s₂ h => ?_, fun _ _ _ h => status_eq_of_config_eq (exec_config h)⟩
  · rw [check_toList, validBlob_toList, initFailed_iff_not_ready, ready_iff_validTables]
    exact ⟨status_eq_check s.config, status_initOk_iff s.config, Iff.rfl, Iff.rfl⟩
  · calc s₁.status = statusOf (checkTables s₁.config.blob) := status_eq_check s₁.config
      _ = statusOf (checkTables s₂.config.blob) := by rw [h]
      _ = s₂.status := (status_eq_check s₂.config).symm

/-- `init_code` of a pair that can occur, and when it is 0 (R21, R92). -/
theorem legalStatus_initCode {st : Status} (h : legalStatus st = true) :
    (st.initOk = true ↔ st.initCode = 0) ∧
    (st.initCode = 0 ∨ st.initCode = 2 ∨ st.initCode = 3 ∨ st.initCode = 4) := by
  rw [legalStatus_iff_mem] at h
  revert st
  decide

/-- What the builder needs to build: 512 bytes and at least one lane (R96). -/
theorem build_instance {B : List Byte} {n : Nat} {s : State} (h : (build B n).instanceBuilt = some s) :
    ∃ R m, R.toList = B ∧ n = m + 1 ∧ s = State.built { rom := romOf R, extraLanes := m } := by
  unfold build at h
  simp only at h
  split at h
  · rename_i R m hR
    exact ⟨R, m, toBlob?_eq_some_iff.1 hR, rfl, by cases h; rfl⟩
  · cases h

/-- Settles O13: what is built holds the bytes it was built from, and its `STATUS` is a pair that can occur. -/
theorem builtStatusShowsValidity : Obligations.BuiltStatusShowsValidity := by
  intro B n s h
  refine ⟨?_, legalStatus_initCode (status_legal s.config)⟩
  obtain ⟨R, m, rfl, -, rfl⟩ := build_instance h
  rw [validBlob_toList]
  simpa [Config.blob] using status_initOk_iff { rom := romOf R, extraLanes := m }

end Sys2Proof.Proofs

/-! SUPPORT. The buses bit by bit (spec/10_state.md R23, spec/20_memory.md R32, spec/30_encoding.md R43, R46). -/

namespace Sys2Proof.Proofs
open Sys2Proof.Machine Sys2Proof.Laws

/-- The ports lose no bit of a word that fits them (R43, R46). -/
theorem wordOfPorts_portsOfWord {n w : Nat} (h : w < 2 ^ (9 * n + 1)) : wordOfPorts n (portsOfWord n w) = w := by
  have hop : w / 2 ^ (9 * n) % 2 = w / 2 ^ (8 * n) / 2 ^ n := by
    rw [Nat.div_div_eq_div_mul, ← Nat.pow_add, show 8 * n + n = 9 * n by omega]
    exact Nat.mod_eq_of_lt (Nat.div_lt_of_lt_mul (by rwa [← Nat.pow_succ]))
  calc wordOfPorts n (portsOfWord n w)
      = w / 2 ^ (8 * n) / 2 ^ n * (2 ^ n * 2 ^ (8 * n)) + w / 2 ^ (8 * n) % 2 ^ n * 2 ^ (8 * n) + w % 2 ^ (8 * n) := by
        rw [← Nat.pow_add, show n + 8 * n = 9 * n by omega, ← hop]
        simp [wordOfPorts, portsOfWord, Nat.toNat_testBit]
    _ = w / 2 ^ (8 * n) * 2 ^ (8 * n) + w % 2 ^ (8 * n) := by
        rw [← Nat.mul_assoc, ← Nat.add_mul, Nat.div_add_mod']
    _ = w := Nat.div_add_mod' w _

theorem portsOfWord_en_testBit {n k : Nat} (w : Nat) (hk : k < n) :
    (portsOfWord n w).en.testBit k = (laneOfV n w k).en := by
  simp [portsOfWord, laneOfV, Nat.testBit_mod_two_pow, Nat.testBit_div_two_pow, hk, Nat.add_comm]

theorem portsOfWord_data_testBit {n k j : Nat} (w : Nat) (hk : k < n) (hj : j < 8) :
    (portsOfWord n w).data.testBit (8 * k + j) = (laneOfV n w k).d.getLsbD j := by
  have hpos : 8 * k + j < 8 * n := by omega
  simp [portsOfWord, laneOfV, Nat.testBit_mod_two_pow, BitVec.getLsbD_ofNat, hpos, hj, -BitVec.getLsbD_eq_getElem]

/-- Bit k of `out_en` is lane k's enable (R23, R32). -/
theorem outEnBus_testBit {o : List LaneOut} {k : Nat} {l : LaneOut} (h : o[k]? = some l) :
    (outEnBus o).testBit k = l.en := by
  induction o generalizing k with
  | nil => cases h
  | cons a o ih =>
    rw [outEnBus, Nat.add_comm, ← Nat.pow_one 2, Nat.testBit_two_pow_mul_add _ a.en.toNat_lt]
    cases k with
    | zero =>
      obtain rfl : a = l := by simpa using h
      cases a.en <;> rfl
    | succ k => simpa using ih (by simpa using h)

/-- Bits 8k+7 : 8k of `out_data` are lane k's byte (R23, R32). -/
theorem outDataBus_testBit {o : List LaneOut} {k j : Nat} {l : LaneOut} (h : o[k]? = some l) (hj : j < 8) :
    (outDataBus o).testBit (8 * k + j) = l.d.getLsbD j := by
  induction o generalizing k with
  | nil => cases h
  | cons a o ih =>
    rw [outDataBus, Nat.add_comm, show 256 = 2 ^ 8 from rfl, Nat.testBit_two_pow_mul_add _ a.d.isLt]
    cases k with
    | zero =>
      obtain rfl : a = l := by simpa using h
      rw [if_pos (by omega), Nat.mul_zero, Nat.zero_add, BitVec.testBit_toNat]
    | succ k =>
      rw [if_neg (by omega), show 8 * (k + 1) + j - 8 = 8 * k + j by omega]
      exact ih (by simpa using h)

/-- Settles O5: the input buses are the fields of the word, the output buses are read lane by lane. -/
theorem busesCarryLaneZeroLowest : Obligations.BusesCarryLaneZeroLowest :=
  ⟨fun _ w hw => ⟨wordOfPorts_portsOfWord hw, fun _ hk =>
      ⟨portsOfWord_en_testBit w hk, fun _ hj => portsOfWord_data_testBit w hk hj⟩⟩,
    fun _ _ _ h => ⟨outEnBus_testBit h, fun _ hj => outDataBus_testBit h hj⟩⟩

end Sys2Proof.Proofs

/-! SUPPORT. What a lookup, a beat and a pseudo-operation deliver, as functions of the command and the blob: the bytes a
host takes from a beat (spec/41_vector_beat.md R72) and from the canonical packing (spec/42_stream.md R78, R79). -/

namespace Sys2Proof.Proofs
open Sys2Proof.Machine Sys2Proof.Laws

/-! ### One beat -/

/-- What a host may read of an output lane: its enable, and its byte if it is enabled (U1). -/
def readableLane (l : LaneOut) : Bool × Byte := (l.en, if l.en then l.d else 0)

theorem readableLane_laneOut (R : Blob) (op : Op) (draw : Nat) (l : LaneIn) :
    readableLane (laneOut R op draw l) = (l.en, if l.en then lookup R op l.d else 0) := by
  obtain ⟨en, d⟩ := l
  cases en <;> rfl

/-- The readable part of a beat's lanes does not depend on the free values drawn (R67, U1). -/
theorem laneOuts_map_readableLane (R : Blob) (op : Op) (draw : Nat) (ls : List LaneIn) :
    (laneOuts R op draw ls).map readableLane = ls.map fun l => (l.en, if l.en then lookup R op l.d else 0) := by
  induction ls generalizing draw with
  | nil => rfl
  | cons l ls ih => simp [laneOuts, ih, readableLane_laneOut]

/-- The output list of a beat is the lookups of its input list (R72). -/
theorem portBytes_laneOuts (R : Blob) (op : Op) (draw : Nat) (ls : List LaneIn) :
    portBytes { valid := true, lanes := laneOuts R op draw ls } = (beatInput ls).map (lookup R op) := by
  simp only [portBytes, if_true, beatInput]
  induction ls generalizing draw with
  | nil => rfl
  | cons l ls ih =>
    obtain ⟨en, d⟩ := l
    cases en with
    | false => simpa [laneOuts, laneOut_disabled] using ih (draw + 1)
    | true => simpa [laneOuts, laneOut_enabled] using ih (draw + 1)

theorem commitBeat_out_of_ready (op : Op) (ls : List LaneIn) {s : State} (h : s.Ready) :
    (commitBeat op ls s).out = { valid := true, lanes := laneOuts s.config.blob op s.draws ls } :=
  evaluate_beat_ok s.draws op ls (initOk_of_ready h)

theorem commitBeat_output_of_ready (op : Op) (ls : List LaneIn) {s : State} (h : s.Ready) :
    (commitBeat op ls s).output = s.output ++ (beatInput ls).map (lookup s.config.blob op) := by
  rw [← portBytes_laneOuts s.config.blob op s.draws ls, ← commitBeat_out_of_ready op ls h]
  rfl

/-! ### Beats one after another -/

/-- In state READY beats of N lanes all complete and deliver the lookups of their input lists, in order (R79). -/
theorem runBeats_of_ready (op : Op) (bs : List (List LaneIn)) (s : State) (hr : s.Ready)
    (hn : ∀ b ∈ bs, b.length = s.config.lanes) :
    ∃ t, runBeats (runBeat op) bs s = .next t ∧
      t.output = s.output ++ (bs.flatMap beatInput).map (lookup s.config.blob op) := by
  induction bs generalizing s with
  | nil => exact ⟨s, rfl, by simp⟩
  | cons b bs ih =>
    obtain ⟨hb, hbs⟩ := List.forall_mem_cons.1 hn
    obtain ⟨t, ht, hout⟩ := ih (commitBeat op b s) hr hbs
    refine ⟨t, by rw [runBeats, runBeat_of_ready hb hr]; exact ht, ?_⟩
    rw [hout, commitBeat_output_of_ready op b hr]
    simp

/-- In state INIT_FAILED only the empty list of beats completes, and it changes nothing (R75, R81). -/
theorem runBeats_next_of_initFailed {op : Op} {bs : List (List LaneIn)} {s t : State} (hf : s.InitFailed)
    (h : runBeats (runBeat op) bs s = .next t) : bs = [] ∧ t = s := by
  cases bs with
  | nil => cases h; exact ⟨rfl, rfl⟩
  | cons b bs =>
    obtain ⟨u, hu, -⟩ := runBeats_cons_next h
    obtain ⟨-, hr, -⟩ := runBeat_next hu
    exact absurd hr ((initFailed_iff_not_ready s).1 hf)

/-! ### The canonical packing spells its sequence (R78) -/

/-- What a lane contributes to the input list of its beat (R72). -/
def enabledByte (l : LaneIn) : Option Byte := if l.en then some l.d else none

theorem beatInput_eq_filterMap (ls : List LaneIn) : beatInput ls = ls.filterMap enabledByte := by
  induction ls with
  | nil => rfl
  | cons l ls ih =>
    obtain ⟨en, d⟩ := l
    cases en with
    | false => exact ih
    | true => exact congrArg (d :: ·) ih

/-- A lane of the canonical packing contributes the byte at its position, if there is one (R78). -/
theorem enabledByte_packedLane (n : Nat) (pad : Nat → Byte) (x : List Byte) (j k : Nat) :
    enabledByte (packedLane n pad x j k) = x[j * n + k]? := by
  unfold packedLane
  split <;> simp [enabledByte, *]

theorem filterMap_range_getElem? {α : Type} (y : List α) (n : Nat) :
    (List.range n).filterMap (fun k => y[k]?) = y.take n := by
  induction n with
  | zero => rfl
  | succ n ih => rw [List.range_succ, List.filterMap_append, ih, List.take_add_one]; cases h : y[n]? <;> simp [h]

/-- Beat j of the canonical packing carries positions `j * n` to `j * n + n - 1`, whatever pads it. -/
theorem beatInput_packedLanes (n : Nat) (pad : Nat → Byte) (x : List Byte) (j : Nat) :
    beatInput ((List.range n).map (packedLane n pad x j)) = (x.drop (j * n)).take n := by
  rw [beatInput_eq_filterMap, List.filterMap_map, ← filterMap_range_getElem?]
  simp only [Function.comp_def, enabledByte_packedLane, List.getElem?_drop]

theorem flatMap_range_chunks {α : Type} (x : List α) (n m : Nat) :
    (List.range m).flatMap (fun j => (x.drop (j * n)).take n) = x.take (m * n) := by
  induction m with
  | zero => simp
  | succ m ih => rw [List.range_succ, List.flatMap_append, ih, Nat.succ_mul, List.take_add]; simp

theorem le_beatCount_mul {n : Nat} (hn : 1 ≤ n) (len : Nat) : len ≤ beatCount n len * n := by
  have h := Nat.lt_div_mul_add (a := len + n - 1) (b := n) hn
  rw [beatCount]
  omega

/-- The enabled bytes of the canonical packing, beat by beat and lane 0 upward, are the sequence (R78). -/
theorem canonicalBeats_flatMap_beatInput {n : Nat} (hn : 1 ≤ n) (pad : Nat → Byte) (x : List Byte) :
    (canonicalBeats n pad x).flatMap beatInput = x := by
  simp only [canonicalBeats, List.flatMap_map, beatInput_packedLanes]
  rw [flatMap_range_chunks, List.take_of_length_le (le_beatCount_mul hn _)]

theorem length_of_mem_canonicalBeats {n : Nat} {pad : Nat → Byte} {x : List Byte} {b : List LaneIn}
    (h : b ∈ canonicalBeats n pad x) : b.length = n := by
  simp only [canonicalBeats, List.mem_map] at h
  obtain ⟨j, -, rfl⟩ := h
  simp

@[simp] theorem hostBeats_length (x : List Byte) (s : State) :
    (hostBeats x s).length = beatCount s.config.lanes x.length := by
  simp [hostBeats, canonicalBeats]

theorem hostBeats_flatMap_beatInput (x : List Byte) (s : State) : (hostBeats x s).flatMap beatInput = x :=
  canonicalBeats_flatMap_beatInput (Nat.succ_pos s.config.extraLanes) _ x

/-- A pseudo-operation in state READY completes and delivers the lookups of its sequence (R77, R79). -/
theorem runHostBeats_of_ready (op : Op) (x : List Byte) {s : State} (hr : s.Ready) :
    ∃ t, runBeats (runBeat op) (hostBeats x s) s = .next t ∧
      t.output = s.output ++ x.map (lookup s.config.blob op) := by
  simpa only [hostBeats_flatMap_beatInput] using
    runBeats_of_ready op (hostBeats x s) s hr fun _ hb => length_of_mem_canonicalBeats hb

/-! ### No hidden state (R24, R83) -/

theorem ready_of_config_eq {s₁ s₂ : State} (hc : s₁.config = s₂.config) (h : s₁.Ready) : s₂.Ready :=
  (status_eq_of_config_eq hc).symm.trans h

/-- A lookup answers the same byte in every state of one configuration, and delivers nothing (R61). -/
theorem runLookup_no_hidden_state {op : Op} {b : Byte} {s₁ s₂ t₁ : State} (hc : s₁.config = s₂.config)
    (h : runLookup op b s₁ = .next t₁) :
    ∃ t₂, runLookup op b s₂ = .next t₂ ∧ t₁.output = s₁.output ∧ t₂.output = s₂.output ∧ t₁.result = t₂.result := by
  obtain ⟨hr, rfl⟩ := runLookup_next h
  exact ⟨commitLookup op b s₂, whenReady_of_ready _ (ready_of_config_eq hc hr), rfl, rfl, by simp [hc]⟩

/-- A beat delivers the same bytes and drives the same readable lanes in every state of one configuration (R24). -/
theorem runBeat_no_hidden_state {op : Op} {ls : List LaneIn} {s₁ s₂ t₁ : State} (hc : s₁.config = s₂.config)
    (h : runBeat op ls s₁ = .next t₁) :
    ∃ t₂ z, runBeat op ls s₂ = .next t₂ ∧ t₁.output = s₁.output ++ z ∧ t₂.output = s₂.output ++ z ∧
      t₁.out.valid = t₂.out.valid ∧ t₁.out.lanes.map readableLane = t₂.out.lanes.map readableLane := by
  obtain ⟨hn, hr₁, rfl⟩ := runBeat_next h
  have hr₂ := ready_of_config_eq hc hr₁
  refine ⟨commitBeat op ls s₂, _, runBeat_of_ready (hc ▸ hn) hr₂, commitBeat_output_of_ready op ls hr₁, ?_, ?_⟩
  · rw [commitBeat_output_of_ready op ls hr₂, hc]
  · simp only [commitBeat_out_of_ready op ls hr₁, commitBeat_out_of_ready op ls hr₂, laneOuts_map_readableLane, hc,
      and_self]

/-- A pseudo-operation delivers the same bytes in every state of one configuration, whatever pads its tail (R83). -/
theorem runHostBeats_no_hidden_state {op : Op} {x : List Byte} {s₁ s₂ t₁ : State} (hc : s₁.config = s₂.config)
    (h : runBeats (runBeat op) (hostBeats x s₁) s₁ = .next t₁) :
    ∃ t₂ z, runBeats (runBeat op) (hostBeats x s₂) s₂ = .next t₂ ∧ t₁.output = s₁.output ++ z ∧
      t₂.output = s₂.output ++ z := by
  obtain hr | hf := ready_or_initFailed s₁
  · obtain ⟨t, ht, hout₁⟩ := runHostBeats_of_ready op x hr
    obtain rfl : t = t₁ := by rw [ht] at h; cases h; rfl
    obtain ⟨t₂, ht₂, hout₂⟩ := runHostBeats_of_ready op x (ready_of_config_eq hc hr)
    exact ⟨t₂, _, ht₂, hout₁, hc ▸ hout₂⟩
  · obtain ⟨hnil, rfl⟩ := runBeats_next_of_initFailed hf h
    have hnil₂ : hostBeats x s₂ = [] := by
      rw [← List.length_eq_zero_iff] at hnil ⊢
      rwa [hostBeats_length, ← hc, ← hostBeats_length]
    exact ⟨s₂, [], by rw [hnil₂]; rfl, by simp, by simp⟩

/-- Settles O49: a lookup, a beat and a pseudo-operation each read the configuration and the command only. -/
theorem noHiddenState : Obligations.NoHiddenState := by
  intro i s₁ s₂ t₁ hc h
  obtain ⟨op, b, rfl⟩ | ⟨op, ls, rfl⟩ | ⟨op, x, rfl⟩ := instr_cases i
  · simp only [exec_scalarInstr] at h ⊢
    obtain ⟨t₂, h₂, hout₁, hout₂, hres⟩ := runLookup_no_hidden_state hc h
    exact ⟨t₂, [], h₂, by simp [hout₁], by simp [hout₂], fun _ _ _ => hres,
      fun _ _ e => (scalarInstr_ne_beatInstr _ _ _ _ e).elim⟩
  · simp only [exec_beatInstr] at h ⊢
    obtain ⟨t₂, z, h₂, hout₁, hout₂, hports⟩ := runBeat_no_hidden_state hc h
    exact ⟨t₂, z, h₂, hout₁, hout₂, fun _ _ e => (scalarInstr_ne_beatInstr _ _ _ _ e.symm).elim, fun _ _ _ => hports⟩
  · simp only [exec_streamInstr] at h ⊢
    obtain ⟨t₂, z, h₂, hout₁, hout₂⟩ := runHostBeats_no_hidden_state hc h
    exact ⟨t₂, z, h₂, hout₁, hout₂, fun _ _ e => (streamInstr_ne_scalarInstr _ _ _ _ e).elim,
      fun _ _ e => (streamInstr_ne_beatInstr _ _ _ _ e).elim⟩

end Sys2Proof.Proofs

/-! SUPPORT. Command words and commands, each way (spec/30_encoding.md R43 to R50): an S word bit by bit, a V word by its
three fields, its lanes and its select bit. -/

namespace Sys2Proof.Proofs
open Sys2Proof.Machine Sys2Proof.Laws

/-! ### The encoder and well-formedness by family of commands (R49, R54) -/

@[simp] theorem encode_scalarInstr (n : Nat) (op : Op) (b : Byte) :
    encode n (scalarInstr op b) = some (.s (sWord op b)) := by
  cases op <;> rfl

@[simp] theorem encode_beatInstr (n : Nat) (op : Op) (ls : List LaneIn) :
    encode n (beatInstr op ls) = some (.v (vWord n op ls)) := by
  cases op <;> rfl

@[simp] theorem encode_streamInstr (n : Nat) (op : Op) (x : List Byte) : encode n (streamInstr op x) = none := by
  cases op <;> rfl

@[simp] theorem wf_scalarInstr (n : Nat) (op : Op) (b : Byte) : (scalarInstr op b).wf n = true := by
  cases op <;> rfl

@[simp] theorem wf_beatInstr (n : Nat) (op : Op) (ls : List LaneIn) :
    (beatInstr op ls).wf n = true ↔ ls.length = n := by
  cases op <;> exact beq_iff_eq

/-! ### The select bit (R45) -/

@[simp] theorem opOfBit_decide_dec (op : Op) : opOfBit (decide (op = .dec)) = op := by
  cases op <;> rfl

@[simp] theorem decide_opOfBit_dec (b : Bool) : decide (opOfBit b = .dec) = b := by
  cases b <;> rfl

theorem ofBool_decide_dec (op : Op) : BitVec.ofBool (decide (op = .dec)) = op.bit := by
  cases op <;> rfl

theorem getLsbD_bit (op : Op) : op.bit.getLsbD 0 = decide (op = .dec) := by
  cases op <;> rfl

/-! ### S words (R44) -/

theorem sWord_toNat (op : Op) (b : Byte) : (sWord op b).toNat = 256 * op.bit.toNat + b.toNat := by
  rw [sWord, BitVec.toNat_append, ← Nat.shiftLeft_add_eq_or_of_lt b.isLt, Nat.shiftLeft_eq, Nat.mul_comm]

@[simp] theorem decodeS_sWord (op : Op) (b : Byte) : decodeS (sWord op b) = scalarInstr op b := by
  have hop : (sWord op b).getLsbD 8 = decide (op = .dec) := by
    rw [sWord, BitVec.getLsbD_append, if_neg (by decide), getLsbD_bit]
  have hb : (sWord op b).extractLsb' 0 8 = b := BitVec.extractLsb'_append_eq_right
  rw [decodeS, hop, hb, opOfBit_decide_dec]

/-- The select bit and the byte are all of an S word (R44). -/
theorem sWord_opOfBit_extractLsb' (w : SWord) : sWord (opOfBit (w.getLsbD 8)) (w.extractLsb' 0 8) = w := by
  refine BitVec.eq_of_getLsbD_eq fun j hj => ?_
  rw [sWord, BitVec.getLsbD_append]
  split
  · rw [BitVec.getLsbD_extractLsb', Nat.zero_add, decide_eq_true ‹j < 8›, Bool.true_and]
  · obtain rfl : j = 8 := by omega
    rw [getLsbD_bit, decide_opOfBit_dec]

/-! ### V words (R46) -/

/-- Dividing a concatenation `a ‖ c` by the place of `a` drops `c` (R11). -/
theorem mul_add_div_of_lt {a b c : Nat} (h : c < b) : (a * b + c) / b = a := by
  rw [Nat.add_comm, Nat.add_mul_div_right _ _ (Nat.zero_lt_of_lt h), Nat.div_eq_of_lt h, Nat.zero_add]

/-- The ports give the field values back that a V word was serialised from (R43, R46). -/
theorem portsOfWord_wordOfPorts {n : Nat} {p : InPorts} (hen : p.en < 2 ^ n) (hdata : p.data < 2 ^ (8 * n)) :
    portsOfWord n (wordOfPorts n p) = p := by
  have hplace : 2 ^ (9 * n) = 2 ^ n * 2 ^ (8 * n) := by rw [← Nat.pow_add]; congr 1; omega
  have hword : wordOfPorts n p = (p.op.toNat * 2 ^ n + p.en) * 2 ^ (8 * n) + p.data := by
    rw [wordOfPorts, hplace, Nat.add_mul, Nat.mul_assoc]
  have hhigh : wordOfPorts n p / 2 ^ (8 * n) = p.op.toNat * 2 ^ n + p.en := by rw [hword, mul_add_div_of_lt hdata]
  have hop : wordOfPorts n p / 2 ^ (9 * n) = p.op.toNat := by
    rw [hplace, Nat.mul_comm, ← Nat.div_div_eq_div_mul, hhigh, mul_add_div_of_lt hen]
  have hbit : BitVec.ofBool ((wordOfPorts n p).testBit (9 * n)) = p.op := by
    refine BitVec.eq_of_toNat_eq ?_
    rw [BitVec.toNat_ofBool, Nat.toNat_testBit, hop]
    exact Nat.mod_eq_of_lt p.op.isLt
  rw [portsOfWord, hbit, hhigh, Nat.mul_add_mod_of_lt hen, hword, Nat.mul_add_mod_of_lt hdata]

/-- The three fields of the V word of a beat are its ports (R46). -/
theorem portsOfWord_vWord (op : Op) (ls : List LaneIn) :
    portsOfWord ls.length (vWord ls.length op ls) = { op := op.bit, en := packEnables ls, data := packData ls } :=
  portsOfWord_wordOfPorts (p := ⟨op.bit, packEnables ls, packData ls⟩) (WordFits.packEnables_lt ls)
    (WordFits.packData_lt ls)

theorem vWord_testBit_op (op : Op) (ls : List LaneIn) :
    (vWord ls.length op ls).testBit (9 * ls.length) = decide (op = .dec) := by
  have h := congrArg InPorts.op (portsOfWord_vWord op ls)
  exact BitVec.ofBool_eq_iff_eq.1 (h.trans (ofBool_decide_dec op).symm)

/-- A lane as an output bus would carry it: the input buses are packed alike (R23, R32). -/
def asLaneOut (l : LaneIn) : LaneOut := { en := l.en, d := l.d }

theorem packEnables_eq_outEnBus (ls : List LaneIn) : packEnables ls = outEnBus (ls.map asLaneOut) := by
  induction ls with
  | nil => rfl
  | cons l ls ih => rw [packEnables, ih]; rfl

theorem packData_eq_outDataBus (ls : List LaneIn) : packData ls = outDataBus (ls.map asLaneOut) := by
  induction ls with
  | nil => rfl
  | cons l ls ih => rw [packData, ih]; rfl

theorem laneOfV_d_getLsbD (n w k : Nat) {j : Nat} (hj : j < 8) :
    (laneOfV n w k).d.getLsbD j = w.testBit (8 * k + j) := by
  simp [laneOfV, BitVec.getLsbD_ofNat, hj, -BitVec.getLsbD_eq_getElem]

/-- The decoder reads lane k of a beat from the beat's V word (R46). -/
theorem laneOfV_vWord (op : Op) {ls : List LaneIn} {k : Nat} {l : LaneIn} (h : ls[k]? = some l) :
    laneOfV ls.length (vWord ls.length op ls) k = l := by
  obtain ⟨hk, -⟩ := List.getElem?_eq_some_iff.1 h
  have hout : (ls.map asLaneOut)[k]? = some (asLaneOut l) := by rw [List.getElem?_map, h]; rfl
  have hen : (laneOfV ls.length (vWord ls.length op ls) k).en = l.en := by
    rw [← portsOfWord_en_testBit _ hk, portsOfWord_vWord, packEnables_eq_outEnBus]
    exact outEnBus_testBit hout
  have hd : (laneOfV ls.length (vWord ls.length op ls) k).d = l.d := by
    refine BitVec.eq_of_getLsbD_eq fun j hj => ?_
    rw [← portsOfWord_data_testBit _ hk hj, portsOfWord_vWord, packData_eq_outDataBus]
    exact outDataBus_testBit hout hj
  exact congrArg₂ LaneIn.mk hen hd

theorem map_laneOfV_vWord (op : Op) (ls : List LaneIn) :
    (List.range ls.length).map (laneOfV ls.length (vWord ls.length op ls)) = ls := by
  refine List.ext_getElem (by simp) fun k _ hk => ?_
  simpa using laneOfV_vWord op (List.getElem?_eq_getElem hk)

/-- The decoder reads a beat of n lanes from its V word (R46, R49). -/
theorem decode_vWord {n : Nat} (op : Op) {ls : List LaneIn} (hn : ls.length = n) :
    decode n (.v (vWord n op ls)) = .ok (beatInstr op ls) := by
  subst hn
  rw [decode, if_pos (WordFits.vWord_lt op ls), decodeV, vWord_testBit_op, map_laneOfV_vWord, opOfBit_decide_dec]

/-- Two V words with the same select bit and the same lanes are one: these fields cover all 9n + 1 bits (R43, R46). -/
theorem vWord_ext {n v w : Nat} (hv : v < 2 ^ (9 * n + 1)) (hw : w < 2 ^ (9 * n + 1))
    (hop : v.testBit (9 * n) = w.testBit (9 * n)) (hlane : ∀ k < n, laneOfV n v k = laneOfV n w k) : v = w := by
  refine Nat.eq_of_testBit_eq fun i => ?_
  obtain hi | hi | rfl | hi : i < 8 * n ∨ (8 * n ≤ i ∧ i < 9 * n) ∨ i = 9 * n ∨ 9 * n + 1 ≤ i := by omega
  · have hj : i % 8 < 8 := Nat.mod_lt _ (by decide)
    have hd := congrArg (fun l => l.d.getLsbD (i % 8)) (hlane (i / 8) (by omega))
    simpa only [laneOfV_d_getLsbD _ _ _ hj, Nat.div_add_mod] using hd
  · have hen := congrArg LaneIn.en (hlane (i - 8 * n) (by omega))
    simpa only [laneOfV, Nat.add_sub_cancel' hi.1] using hen
  · exact hop
  · have hpow := Nat.pow_le_pow_right (n := 2) (by decide) hi
    rw [Nat.testBit_lt_two_pow (hv.trans_le hpow), Nat.testBit_lt_two_pow (hw.trans_le hpow)]

/-- A V word is that of its select bit and its lanes (R46, R50). -/
theorem vWord_of_fields {n w : Nat} {ls : List LaneIn} (hw : w < 2 ^ (9 * n + 1)) (hn : ls.length = n)
    (hls : ∀ k < n, ls[k]? = some (laneOfV n w k)) : vWord n (opOfBit (w.testBit (9 * n))) ls = w := by
  subst hn
  refine vWord_ext (WordFits.vWord_lt _ ls) hw ?_ fun k hk => laneOfV_vWord _ (hls k hk)
  rw [vWord_testBit_op, decide_opOfBit_dec]

theorem decode_v_eq_ok_iff {n w : Nat} {i : Instr} :
    decode n (.v w) = .ok i ↔ w < 2 ^ (9 * n + 1) ∧ decodeV n w = i := by
  by_cases hw : w < 2 ^ (9 * n + 1) <;> simp [decode, hw]

/-! ### The statements on the encoding -/

/-- Settles O1: by the family of the command; a lookup's word and a beat's word are read back field by field, and a
pseudo-operation has no word. -/
theorem decodeOfEncodeIsIdentity : Obligations.DecodeOfEncodeIsIdentity := by
  intro n i w hwf henc
  obtain ⟨op, b, rfl⟩ | ⟨op, ls, rfl⟩ | ⟨op, x, rfl⟩ := instr_cases i
  · obtain rfl : .s (sWord op b) = w := by simpa using henc
    exact congrArg Except.ok (decodeS_sWord op b)
  · obtain rfl : .v (vWord n op ls) = w := by simpa using henc
    exact decode_vWord op ((wf_beatInstr n op ls).1 hwf)
  · simp at henc

/-- Settles O2: the fields the decoder reads cover the word, in either format. -/
theorem encodeOfDecodeIsIdentity : Obligations.EncodeOfDecodeIsIdentity := by
  intro n w i h
  cases w with
  | s w =>
    obtain rfl : decodeS w = i := Except.ok.inj h
    rw [decodeS, wf_scalarInstr, encode_scalarInstr, sWord_opOfBit_extractLsb']
    exact ⟨rfl, rfl⟩
  | v w =>
    obtain ⟨hw, rfl⟩ := decode_v_eq_ok_iff.1 h
    have hn : ((List.range n).map (laneOfV n w)).length = n := by simp
    rw [decodeV, wf_beatInstr, encode_beatInstr, vWord_of_fields hw hn fun k hk => by simp [hk]]
    exact ⟨hn, rfl⟩

/-- Settles O4: the ports split the word into its fields, and the decoder's lanes are the beat's. -/
theorem vWordFieldPositions : Obligations.VWordFieldPositions := by
  refine fun op ls => ⟨vWord_testBit_op op ls, WordFits.vWord_lt op ls, portsOfWord_vWord op ls, fun k l h => ?_⟩
  have hl := laneOfV_vWord op h
  exact ⟨congrArg LaneIn.en hl, fun j hj => by rw [← laneOfV_d_getLsbD _ _ _ hj, hl]⟩

/-- Settles O3: an S word has no width to exceed, a V word of 9n + 1 bits passes the one test. -/
theorem everyWordIsACommand : Obligations.EveryWordIsACommand :=
  ⟨fun _ _ => ⟨_, _, rfl⟩, fun n w hw => ⟨_, (List.range n).map (laneOfV n w), by simp, if_pos hw⟩⟩

/-- Settles O6: an enabled lane presents its S word. -/
theorem lanePresentsConcatenation : Obligations.LanePresentsConcatenation :=
  fun op d => ⟨⟨sWord op d, rfl, rfl, sWord_toNat op d⟩, rfl⟩

end Sys2Proof.Proofs

/-! SUPPORT. A presented word and the command it is (spec/30_encoding.md R46, R51, R54, R56): a step decodes and runs it,
so that presenting the words of beats one by one is running the beats. -/

namespace Sys2Proof.Proofs
open Sys2Proof.Machine Sys2Proof.Laws

section Step
variable {s : State} {w : CmdWord} {rest : List Drive}

theorem step_of_decode_ok {i : Instr} (hs : s.stream = .cmd w :: rest) (h : decode s.config.lanes w = .ok i) :
    step s = exec i (withStream rest s) := by
  simp only [step, hs, h]

theorem step_of_decode_error {e : DecodeError} (hs : s.stream = .cmd w :: rest)
    (h : decode s.config.lanes w = .error e) : step s = .refused (.notACommandWord e) := by
  simp only [step, hs, h]
end Step

theorem run_succ_of_step_next {k : Nat} {s t : State} (h : step s = .next t) :
    Host.Core.run Sys2Proof.core (k + 1) s = Host.Core.run Sys2Proof.core k t := by
  simp only [Host.Core.run, show Sys2Proof.core.step s = .next t from h]

theorem run_succ_of_step_refused {k : Nat} {s : State} {r : Refusal} (h : step s = .refused r) :
    Host.Core.run Sys2Proof.core (k + 1) s = .refused r := by
  simp only [Host.Core.run, show Sys2Proof.core.step s = .refused r from h]

/-- The step that is presented a beat's V word runs the beat (R54, R56). -/
theorem step_vWord {op : Op} {b : List LaneIn} {s : State} (rest : List Drive) (hb : b.length = s.config.lanes) :
    step (withStream (.cmd (.v (vWord s.config.lanes op b)) :: rest) s) = runBeat op b (withStream rest s) :=
  (step_of_decode_ok (withStream_stream _ s) (decode_vWord op hb)).trans (exec_beatInstr op b _)

/-- What a host presents next has no part in a beat: it completes or is refused alike (R24). -/
theorem runBeat_withStream_of_ready {op : Op} {b : List LaneIn} {s : State} (rest : List Drive)
    (hb : b.length = s.config.lanes) (hr : s.Ready) :
    runBeat op b (withStream rest s) = .next (withStream rest (commitBeat op b s)) :=
  runBeat_of_ready (s := withStream rest s) hb hr

theorem runBeat_withStream_of_initFailed {op : Op} {b : List LaneIn} {s : State} (rest : List Drive)
    (hb : b.length = s.config.lanes) (hf : s.InitFailed) :
    runBeat op b (withStream rest s) = .refused (.malformedTable s.status.initCode) :=
  runBeat_of_initFailed (s := withStream rest s) hb hf

/-- The V words of beats of n lanes, as a host presents them (R46, R56). -/
def beatDrives (n : Nat) (op : Op) (bs : List (List LaneIn)) : List Drive :=
  bs.map fun b => .cmd (.v (vWord n op b))

/-- Presenting the V words of beats of N lanes, one step each, is running the beats (R54, R56). -/
theorem run_beatDrives (op : Op) (bs : List (List LaneIn)) (rest : List Drive) (s : State)
    (hn : ∀ b ∈ bs, b.length = s.config.lanes) :
    Host.Core.run Sys2Proof.core bs.length (withStream (beatDrives s.config.lanes op bs ++ rest) s) =
      runBeats (runBeat op) bs (withStream rest s) := by
  induction bs generalizing s with
  | nil => rfl
  | cons b bs ih =>
    obtain ⟨hb, hbs⟩ := List.forall_mem_cons.1 hn
    have hstep : step (withStream (beatDrives s.config.lanes op (b :: bs) ++ rest) s) =
        runBeat op b (withStream (beatDrives s.config.lanes op bs ++ rest) s) := step_vWord _ hb
    obtain hr | hf := ready_or_initFailed s
    · rw [runBeat_withStream_of_ready _ hb hr] at hstep
      rw [runBeats, runBeat_withStream_of_ready rest hb hr]
      exact (run_succ_of_step_next hstep).trans (ih (commitBeat op b s) hbs)
    · rw [runBeat_withStream_of_initFailed _ hb hf] at hstep
      rw [runBeats, runBeat_withStream_of_initFailed rest hb hf]
      exact run_succ_of_step_refused hstep

/-- Settles O45: the beats a host presents have N lanes, and do not depend on what is presented after them. -/
theorem presentingTheBeatsIsThePseudoOperation : Obligations.PresentingTheBeatsIsThePseudoOperation := by
  intro s x rest
  have hn : ∀ b ∈ hostBeats x s, b.length = s.config.lanes := fun _ => length_of_mem_canonicalBeats
  exact ⟨run_beatDrives .enc (hostBeats x s) rest s hn, run_beatDrives .dec (hostBeats x s) rest s hn⟩

/-- Settles O8: the decoder answers the error that the step reports. -/
theorem tooWideNumberIsRefused : Obligations.TooWideNumberIsRefused :=
  fun _ _ _ hs hw => step_of_decode_error hs (if_neg hw.not_gt)

/-- A beat with no lane enabled has no input (R51, R72). -/
theorem beatInput_of_disabled {ls : List LaneIn} (h : ∀ l ∈ ls, l.en = false) : beatInput ls = [] := by
  rw [beatInput, List.filter_eq_nil_iff.2 fun l hl => by simp [h l hl], List.map_nil]

/-- Settles O30: the beat completes, and its output is the lookups of no byte. -/
theorem emptyBeatContributesNothing : Obligations.EmptyBeatContributesNothing := by
  intro op s ls hn hdis hr
  refine ⟨commitBeat op ls s, (exec_beatInstr op ls s).trans (runBeat_of_ready hn hr), ?_, ?_⟩
  · rw [commitBeat_out_of_ready op ls hr, portBytes_laneOuts, beatInput_of_disabled hdis, List.map_nil]
  · rw [commitBeat_output_of_ready op ls hr, beatInput_of_disabled hdis, List.map_nil, List.append_nil]

/-- Settles O34: a beat is run on a list of N lanes only. -/
theorem wrongLaneCountIsRefused : Obligations.WrongLaneCountIsRefused :=
  fun op s ls hn => (exec_beatInstr op ls s).trans (if_neg hn)

/-- Settles O46: a step decodes the presented word and runs the command. -/
theorem stepRunsThePresentedCommand : Obligations.StepRunsThePresentedCommand :=
  fun _ _ _ _ => step_of_decode_ok

end Sys2Proof.Proofs

/-! SUPPORT. The lookup as a function on bytes (spec/40_lookup.md R57, R60 to R63): the entry of the table the operation
selects, whether it is read from `ROM` or computed by the gates of a lookup unit, and what a lookup command makes of
it. -/

namespace Sys2Proof.Proofs
open Sys2Proof.Machine Sys2Proof.Laws

/-! ### The lookup reads one of the two tables (R14, R57) -/

/-- The address `op ‖ b` as a number (R44, R57). -/
theorem sWord_eq_ofNat (op : Op) (b : Byte) : sWord op b = BitVec.ofNat 9 (256 * op.bit.toNat + b.toNat) := by
  rw [← sWord_toNat, BitVec.ofNat_toNat, BitVec.setWidth_eq]

/-- `encode_table` is the half of `ROM` below address 256, `decode_table` the half from there on (R14). -/
theorem lookup_eq_opTable (R : Blob) (op : Op) : lookup R op = opTable R op := by
  funext b
  cases op with
  | enc => simp [lookup, rom, opTable, encodeTable, sWord_toNat, Op.bit]
  | dec => simp [lookup, rom, opTable, decodeTable, sWord_toNat, Op.bit]

@[simp] theorem lookup_enc (R : Blob) (b : Byte) : lookup R .enc b = encodeTable R b :=
  congrFun (lookup_eq_opTable R .enc) b

@[simp] theorem lookup_dec (R : Blob) (b : Byte) : lookup R .dec b = decodeTable R b :=
  congrFun (lookup_eq_opTable R .dec) b

/-- Settles O17: the address as a number, and the half of `ROM` it lies in. -/
theorem lookupReadsSelectedTable : Obligations.LookupReadsSelectedTable :=
  fun R op b => ⟨rfl, congrArg (rom R) (sWord_eq_ofNat op b), lookup_enc R b, lookup_dec R b⟩

/-- Either table of a valid blob is a permutation of the bytes (R16). -/
theorem perm_opTable {R : Blob} (h : ValidTables R) (op : Op) : Perm (opTable R op) := by
  obtain ⟨hE, hD, -⟩ := h
  cases op with
  | enc => exact hE
  | dec => exact hD

/-- Settles O18: an engine is READY over valid tables only, and each of them is a permutation. -/
theorem lookupIsBijective : Obligations.LookupIsBijective := by
  intro s op hr
  rw [lookup_eq_opTable, ← perm_iff_bijective]
  exact perm_opTable ((ready_iff_validTables s).1 hr) op

/-! ### The gates of a lookup unit (R60) -/

theorem mem_allBytes (b : Byte) : b ∈ allBytes :=
  List.mem_map.2 ⟨b.toNat, List.mem_range.2 b.isLt, by simp⟩

theorem selectLine_iff (b j : Byte) : selectLine b j = true ↔ j = b := by
  rw [selectLine, beq_iff_eq, eq_comm]

/-- Of the terms of the multiplexer's OR only the one of the raised line can be 1, and it is that entry's bit (R60). -/
theorem muxBit_eq_getLsbD (T : Byte → Byte) (b : Byte) (n : Nat) : muxBit T b n = (T b).getLsbD n := by
  rw [Bool.eq_iff_iff, muxBit, List.any_eq_true]
  constructor
  · rintro ⟨j, -, hj⟩
    obtain ⟨hsel, hbit⟩ := Bool.and_eq_true_iff.1 hj
    rwa [(selectLine_iff b j).1 hsel] at hbit
  · intro hbit
    exact ⟨b, mem_allBytes b, Bool.and_eq_true_iff.2 ⟨(selectLine_iff b b).2 rfl, hbit⟩⟩

/-- The AND-OR multiplexer answers the entry at the address (R60). -/
theorem muxByte_eq_entry (T : Byte → Byte) (b : Byte) : muxByte T b = T b := by
  refine BitVec.eq_of_getLsbD_eq fun n hn => ?_
  rw [muxByte, BitVec.getLsbD_ofFnLE, dif_pos hn, muxBit_eq_getLsbD]

/-- The table select passes on the entry of the table `op` names (R45, R60). -/
theorem lookupUnit_eq_lookup (R : Blob) (op : Op) (b : Byte) : lookupUnit R op b = lookup R op b := by
  cases op with
  | enc => exact (muxByte_eq_entry (encodeTable R) b).trans (lookup_enc R b).symm
  | dec => exact (muxByte_eq_entry (decodeTable R) b).trans (lookup_dec R b).symm

/-- Settles O20: the raised line is that of the address, so the multiplexer answers the entry there. -/
theorem gatesComputeLookup : Obligations.GatesComputeLookup := fun R op b =>
  ⟨⟨b, (selectLine_iff b b).2 rfl, fun j => (selectLine_iff b j).1⟩, lookupUnit_eq_lookup R op b⟩

/-! ### ENC and DEC as commands (R58, R59, R64) -/

section Scalar
variable (op : Op) (b : Byte) {s : State}

theorem exec_scalarInstr_of_ready (h : s.Ready) : exec (scalarInstr op b) s = .next (commitLookup op b s) :=
  (exec_scalarInstr op b s).trans (whenReady_of_ready _ h)

theorem exec_scalarInstr_of_initFailed (h : s.InitFailed) :
    exec (scalarInstr op b) s = .refused (.malformedTable s.status.initCode) :=
  (exec_scalarInstr op b s).trans (whenReady_of_initFailed _ h)

/-- The effect of a lookup command is the entry of its table in `result` (R58, R59). -/
theorem commitLookup_eq (s : State) : commitLookup op b s = { s with result := opTable s.config.blob op b } := by
  rw [commitLookup, lookup_eq_opTable]

/-- The decoder reads a lookup command from its address as a number (R44, R49). -/
theorem decode_s_ofNat (n : Nat) :
    decode n (.s (BitVec.ofNat 9 (256 * op.bit.toNat + b.toNat))) = .ok (scalarInstr op b) := by
  rw [← sWord_eq_ofNat, decode, decodeS_sWord]

/-- The contract of a lookup command: its word, what it answers in state READY, its refusal in INIT_FAILED (R58, R59,
R65). -/
theorem scalarInstr_contract (s : State) :
    decode s.config.lanes (.s (BitVec.ofNat 9 (256 * op.bit.toNat + b.toNat))) = .ok (scalarInstr op b) ∧
    (s.Ready → exec (scalarInstr op b) s = .next { s with result := opTable s.config.blob op b }) ∧
    (s.InitFailed → exec (scalarInstr op b) s = .refused (.malformedTable s.status.initCode)) :=
  ⟨decode_s_ofNat op b s.config.lanes, fun hr => commitLookup_eq op b s ▸ exec_scalarInstr_of_ready op b hr,
    exec_scalarInstr_of_initFailed op b⟩
end Scalar

/-- Settles O21: the contract of a lookup command, with select bit 0. -/
theorem encAnswersEncodeTable : Obligations.EncAnswersEncodeTable := by
  intro s b
  have hc := scalarInstr_contract .enc b s
  have haddr : 256 * Op.enc.bit.toNat + b.toNat = b.toNat := Nat.zero_add _
  rw [haddr] at hc
  exact hc

/-- Settles O22: the contract of a lookup command, with select bit 1. -/
theorem decAnswersDecodeTable : Obligations.DecAnswersDecodeTable :=
  fun s b => scalarInstr_contract .dec b s

/-- Settles O23: a lookup command that completes has stored its result byte and nothing else. -/
theorem scalarFrame : Obligations.ScalarFrame := by
  intro op b s t h
  rw [exec_scalarInstr] at h
  obtain ⟨-, rfl⟩ := runLookup_next h
  exact ⟨rfl, rfl, rfl, rfl, rfl, rfl, fun _ => rfl⟩

/-- Two lookup commands one after the other answer the composition of their lookups: the first leaves `ROM` and
`STATUS` as they were (R22, R61). -/
theorem exec_scalarInstr_twice (op op' : Op) (b : Byte) {s : State} (hr : s.Ready) :
    ∃ t u, exec (scalarInstr op b) s = .next t ∧ exec (scalarInstr op' t.result) t = .next u ∧
      u.result = lookup s.config.blob op' (lookup s.config.blob op b) :=
  ⟨_, _, exec_scalarInstr_of_ready op b hr, exec_scalarInstr_of_ready op' _ (s := commitLookup op b s) hr, rfl⟩

/-- Settles O19: the second command looks up what the first one answered, and the tables of a READY engine are
inverse. -/
theorem scalarCommandsUndoEachOther : Obligations.ScalarCommandsUndoEachOther := by
  intro s b hr
  obtain ⟨-, -, hinv⟩ := (ready_iff_validTables s).1 hr
  obtain ⟨hDE, hED⟩ := hinv b
  obtain ⟨t, u, ht, hu, hres⟩ := exec_scalarInstr_twice .enc .dec b hr
  obtain ⟨t', u', ht', hu', hres'⟩ := exec_scalarInstr_twice .dec .enc b hr
  rw [lookup_enc, lookup_dec] at hres hres'
  exact ⟨⟨t, u, ht, hu, hres.trans hDE⟩, ⟨t', u', ht', hu', hres'.trans hED⟩⟩

/-- Settles O52: in state READY a lookup completes, a beat of N lanes completes, and so do beats one after another. -/
theorem readyCommandsNeverStop : Obligations.ReadyCommandsNeverStop := by
  intro i s hr hwf
  obtain ⟨op, b, rfl⟩ | ⟨op, ls, rfl⟩ | ⟨op, x, rfl⟩ := instr_cases i
  · exact ⟨_, exec_scalarInstr_of_ready op b hr⟩
  · rw [exec_beatInstr]
    exact ⟨_, runBeat_of_ready ((wf_beatInstr _ op ls).1 hwf) hr⟩
  · rw [exec_streamInstr]
    obtain ⟨t, ht, -⟩ := runHostBeats_of_ready op x hr
    exact ⟨t, ht⟩

/-- Settles O7: the decoder is run on each of the five words. -/
theorem specWordsDecode : Obligations.SpecWordsDecode := by
  refine ⟨?_, ?_, ?_, ?_, ?_⟩ <;> decide

end Sys2Proof.Proofs

/-! SUPPORT. One beat as a command (spec/41_vector_beat.md R67 to R76): what it drives in state READY, its refusal in
INIT_FAILED, what it leaves unchanged, and that it reads its lanes through their enabled bytes only. -/

namespace Sys2Proof.Proofs
open Sys2Proof.Machine Sys2Proof.Laws

/-! ### The lanes of the output ports (R67, R75, R76) -/

/-- `out_en = en` (R67, R72). -/
theorem laneOuts_map_en (R : Blob) (op : Op) (draw : Nat) (ls : List LaneIn) :
    (laneOuts R op draw ls).map (·.en) = ls.map (·.en) := by
  induction ls generalizing draw with
  | nil => rfl
  | cons l ls ih => simp [laneOuts, ih]

/-- An enabled lane drives its own lookup, whatever its place, its neighbours and the free values drawn (R67, R70). -/
theorem laneOuts_getElem?_enabled (R : Blob) (op : Op) (draw : Nat) {ls : List LaneIn} {k : Nat} {d : Byte}
    (h : ls[k]? = some ⟨true, d⟩) : (laneOuts R op draw ls)[k]? = some ⟨true, lookup R op d⟩ := by
  rw [laneOuts_getElem?, h, Option.map_some, laneOut_enabled]

/-- Every `out_en[k]` = 0 while nothing is delivered (R75, R76). -/
theorem quietPorts_map_en (n draws : Nat) : (quietPorts n draws).lanes.map (·.en) = List.replicate n false :=
  List.eq_replicate_iff.2
    ⟨by rw [List.length_map, quietPorts_length], List.forall_mem_map.2 fun _ => quietPorts_lane_disabled⟩

/-! ### What a beat answers (R68, R69, R75) -/

/-- A beat that completes does so in state READY only, and its effect is that of `commitBeat` (R67). -/
theorem exec_beatInstr_next {op : Op} {ls : List LaneIn} {s t : State} (h : exec (beatInstr op ls) s = .next t) :
    s.Ready ∧ t = commitBeat op ls s :=
  (runBeat_next (exec_beatInstr op ls s ▸ h)).2

section Beat
variable (op : Op) {ls : List LaneIn} {s : State}

theorem exec_beatInstr_of_ready (hn : ls.length = s.config.lanes) (h : s.Ready) :
    exec (beatInstr op ls) s = .next (commitBeat op ls s) :=
  (exec_beatInstr op ls s).trans (runBeat_of_ready hn h)

theorem exec_beatInstr_of_initFailed (hn : ls.length = s.config.lanes) (h : s.InitFailed) :
    exec (beatInstr op ls) s = .refused (.malformedTable s.status.initCode) :=
  (exec_beatInstr op ls s).trans (runBeat_of_initFailed hn h)

/-- The contract of a beat: its word, what it drives and leaves unchanged in state READY, its refusal in INIT_FAILED
(R46, R67 to R69, R75). -/
theorem beatInstr_contract (hn : ls.length = s.config.lanes) :
    decode s.config.lanes (.v (vWord s.config.lanes op ls)) = .ok (beatInstr op ls) ∧
    (s.Ready → ∃ t, exec (beatInstr op ls) s = .next t ∧ t.out.valid = true ∧
      t.out.lanes.map (·.en) = ls.map (·.en) ∧
      (∀ (k : Nat) (d : Byte), ls[k]? = some ⟨true, d⟩ →
        t.out.lanes[k]? = some ⟨true, opTable s.config.blob op d⟩) ∧
      t = { s with out := t.out, output := t.output, draws := t.draws }) ∧
    (s.InitFailed → exec (beatInstr op ls) s = .refused (.malformedTable s.status.initCode)) := by
  refine ⟨decode_vWord op hn, fun hr => ?_, exec_beatInstr_of_initFailed op hn⟩
  have hout := commitBeat_out_of_ready op ls hr
  refine ⟨commitBeat op ls s, exec_beatInstr_of_ready op hn hr, congrArg OutPorts.valid hout, ?_, ?_, rfl⟩
  · rw [hout, laneOuts_map_en]
  · rw [hout, ← lookup_eq_opTable]
    exact fun _ _ => laneOuts_getElem?_enabled _ op _
end Beat

theorem vWord_enc (n : Nat) (ls : List LaneIn) : vWord n .enc ls = packEnables ls * 2 ^ (8 * n) + packData ls := by
  simp [vWord, Op.bit]

theorem vWord_dec (n : Nat) (ls : List LaneIn) :
    vWord n .dec ls = 2 ^ (9 * n) + packEnables ls * 2 ^ (8 * n) + packData ls := by
  simp [vWord, Op.bit]

/-- Settles O24: the contract of a beat, with select bit 0. -/
theorem vencDrivesEncodeTable : Obligations.VencDrivesEncodeTable := by
  intro s ls hn
  rw [← vWord_enc]
  exact beatInstr_contract .enc hn

/-- Settles O25: the contract of a beat, with select bit 1. -/
theorem vdecDrivesDecodeTable : Obligations.VdecDrivesDecodeTable := by
  intro s ls hn
  rw [← vWord_dec]
  exact beatInstr_contract .dec hn

/-- Settles O27: either lane drives the lookup of the byte, in one blob. -/
theorem laneDependsOnlyOnItsByte : Obligations.LaneDependsOnlyOnItsByte := by
  intro op s₁ s₂ t₁ t₂ ls₁ ls₂ j k d hblob h₁ h₂ hj hk
  obtain ⟨hr₁, rfl⟩ := exec_beatInstr_next h₁
  obtain ⟨hr₂, rfl⟩ := exec_beatInstr_next h₂
  rw [commitBeat_out_of_ready op ls₁ hr₁, commitBeat_out_of_ready op ls₂ hr₂, ← hblob]
  exact ⟨_, laneOuts_getElem?_enabled _ op _ hj, laneOuts_getElem?_enabled _ op _ hk⟩

/-- The input list of a beat has one byte per enabled lane (R72). -/
theorem length_beatInput (ls : List LaneIn) : (beatInput ls).length = enabledLanes ls := by
  rw [beatInput, List.length_map, enabledLanes, List.countP_eq_length_filter]

/-- Settles O29: the output list is the lookups of the input list, which has one byte per enabled lane. -/
theorem beatNeitherAddsNorDropsBytes : Obligations.BeatNeitherAddsNorDropsBytes := by
  intro op s t ls h
  obtain ⟨hr, rfl⟩ := exec_beatInstr_next h
  have hbytes : portBytes (commitBeat op ls s).out = (beatInput ls).map (opTable s.config.blob op) := by
    rw [commitBeat_out_of_ready op ls hr, portBytes_laneOuts, lookup_eq_opTable]
  refine ⟨?_, hbytes, ?_, length_beatInput ls, rfl⟩
  · rw [commitBeat_out_of_ready op ls hr, laneOuts_map_en]
  · rw [hbytes, List.length_map, length_beatInput]

/-- On one lane an enabled beat and the lookup command both complete, with the same byte (R74). -/
theorem oneLaneBeat_and_scalarInstr (op : Op) (b : Byte) {s : State} (hn : s.config.lanes = 1) (hr : s.Ready) :
    ∃ t u, exec (beatInstr op [⟨true, b⟩]) s = .next t ∧ exec (scalarInstr op b) s = .next u ∧
      portBytes t.out = [opTable s.config.blob op b] ∧ u.result = opTable s.config.blob op b := by
  refine ⟨_, _, exec_beatInstr_of_ready op hn.symm hr, exec_scalarInstr_of_ready op b hr, ?_, ?_⟩
  · rw [commitBeat_out_of_ready op _ hr, portBytes_laneOuts, lookup_eq_opTable]
    rfl
  · rw [commitLookup_result, lookup_eq_opTable]

/-- Settles O31: on one lane the input list of an enabled beat is its one byte. -/
theorem oneLaneBeatIsScalarCommand : Obligations.OneLaneBeatIsScalarCommand :=
  fun _ b hn hr => ⟨oneLaneBeat_and_scalarInstr .enc b hn hr, oneLaneBeat_and_scalarInstr .dec b hn hr⟩

/-- Settles O32: the output function gives quiet ports for a beat that is refused. -/
theorem initFailedBeatIsRefused : Obligations.InitFailedBeatIsRefused := by
  intro op s ls hf hn
  refine ⟨exec_beatInstr_of_initFailed op hn hf, fun draws => ?_⟩
  rw [evaluate_beat_failed draws op ls hf]
  exact ⟨rfl, quietPorts_map_en s.config.lanes draws⟩

/-! ### An idle evaluation (R76) -/

/-- With nothing presented, or an idle entry, a step is an idle evaluation (R56, R76). -/
theorem step_of_idle {s : State} {rest : List Drive} (h : (s.stream = [] ∧ rest = []) ∨ s.stream = .idle :: rest) :
    step s = .next (idleEvaluation (withStream rest s)) := by
  obtain ⟨hs, rfl⟩ | hs := h
  · have hself : withStream [] s = s := by rw [← hs]; rfl
    rw [hself]
    simp only [step, hs]
  · simp only [step, hs]

/-- Settles O35: an idle evaluation drives quiet ports and draws their free values. -/
theorem idleDeliversNothing : Obligations.IdleDeliversNothing :=
  fun s _ h => ⟨_, step_of_idle h, rfl, quietPorts_map_en s.config.lanes s.draws, rfl⟩

/-! ### What beats leave unchanged (R67, R77) -/

/-- What a beat, and so any number of beats, leaves as it was; the host's output sequence may grow at its end. -/
structure BeatFrame (s t : State) : Prop where
  config : t.config = s.config
  result : t.result = s.result
  stream : t.stream = s.stream
  output : s.output <+: t.output

theorem BeatFrame.refl (s : State) : BeatFrame s s := ⟨rfl, rfl, rfl, List.prefix_rfl⟩

theorem BeatFrame.trans {s t u : State} (hst : BeatFrame s t) (htu : BeatFrame t u) : BeatFrame s u :=
  ⟨htu.config.trans hst.config, htu.result.trans hst.result, htu.stream.trans hst.stream,
    hst.output.trans htu.output⟩

theorem runBeat_frame {op : Op} {ls : List LaneIn} {s t : State} (h : runBeat op ls s = .next t) : BeatFrame s t := by
  obtain ⟨-, -, rfl⟩ := runBeat_next h
  exact ⟨rfl, rfl, rfl, List.prefix_append _ _⟩

theorem runBeats_frame {op : Op} {bs : List (List LaneIn)} {s t : State} (h : runBeats (runBeat op) bs s = .next t) :
    BeatFrame s t :=
  runBeats_induction BeatFrame.refl (fun _ _ _ => BeatFrame.trans) (fun _ _ _ => runBeat_frame) bs s t h

/-- Settles O26: each of the four commands is one beat, or beats one after another. -/
theorem beatAndStreamFrame : Obligations.BeatAndStreamFrame := by
  intro s t ls x h
  have hframe : BeatFrame s t := by
    obtain h | h | h | h := h
    · exact runBeat_frame (op := .enc) h
    · exact runBeat_frame (op := .dec) h
    · exact runBeats_frame (op := .enc) h
    · exact runBeats_frame (op := .dec) h
  exact ⟨hframe.config, status_eq_of_config_eq hframe.config, hframe.result, hframe.stream, hframe.output,
    fun _ => by rw [hframe.config]⟩

/-! ### A beat reads its lanes through their enabled bytes only (R71) -/

/-- Lanes with the same enable, and the same byte if enabled, are those that contribute the same to the input list. -/
theorem enabledByte_eq_iff (l₁ l₂ : LaneIn) :
    enabledByte l₁ = enabledByte l₂ ↔ l₁.en = l₂.en ∧ (l₁.en = true → l₁.d = l₂.d) := by
  obtain ⟨en₁, d₁⟩ := l₁
  obtain ⟨en₂, d₂⟩ := l₂
  cases en₁ <;> cases en₂ <;> simp [enabledByte]

theorem map_enabledByte_eq {ls₁ ls₂ : List LaneIn}
    (h : List.Forall₂ (fun l₁ l₂ => l₁.en = l₂.en ∧ (l₁.en = true → l₁.d = l₂.d)) ls₁ ls₂) :
    ls₁.map enabledByte = ls₂.map enabledByte := by
  simpa only [← enabledByte_eq_iff, ← List.forall₂_map_left_iff, ← List.forall₂_map_right_iff,
    List.forall₂_eq_eq_eq] using h

theorem beatInput_eq_reduceOption (ls : List LaneIn) : beatInput ls = (ls.map enabledByte).reduceOption := by
  rw [beatInput_eq_filterMap, List.reduceOption, List.filterMap_map, Function.id_comp]

/-- What a host may read of the output lane of a lane whose enabled byte is `b` (R67, U1). -/
def readableLookup (R : Blob) (op : Op) (b : Option Byte) : Bool × Byte := (b.isSome, (b.map (lookup R op)).getD 0)

theorem laneOuts_map_readableLane_of_enabledByte (R : Blob) (op : Op) (draw : Nat) (ls : List LaneIn) :
    (laneOuts R op draw ls).map readableLane = (ls.map enabledByte).map (readableLookup R op) := by
  rw [laneOuts_map_readableLane, List.map_map]
  refine List.map_congr_left fun l _ => ?_
  obtain ⟨en, d⟩ := l
  cases en <;> rfl

/-- Two beats of one operation and as many lanes, in one state, both complete or are refused alike (R71). -/
theorem exec_beatInstr_alike (op : Op) {ls₁ ls₂ : List LaneIn} (s : State) (hlen : ls₁.length = ls₂.length) :
    (s.Ready ∧ exec (beatInstr op ls₁) s = .next (commitBeat op ls₁ s) ∧
      exec (beatInstr op ls₂) s = .next (commitBeat op ls₂ s)) ∨
    ∃ r, exec (beatInstr op ls₁) s = .refused r ∧ exec (beatInstr op ls₂) s = .refused r := by
  by_cases hn : ls₁.length = s.config.lanes
  · have hn₂ := hlen.symm.trans hn
    obtain hr | hf := ready_or_initFailed s
    · exact .inl ⟨hr, exec_beatInstr_of_ready op hn hr, exec_beatInstr_of_ready op hn₂ hr⟩
    · exact .inr ⟨_, exec_beatInstr_of_initFailed op hn hf, exec_beatInstr_of_initFailed op hn₂ hf⟩
  · refine .inr ⟨_, wrongLaneCountIsRefused op s ls₁ hn, ?_⟩
    rw [hlen] at hn ⊢
    exact wrongLaneCountIsRefused op s ls₂ hn

/-- Settles O28: the outcome depends on the number of lanes, and what a host may read of it on the enabled bytes. -/
theorem disabledLaneInputIsIgnored : Obligations.DisabledLaneInputIsIgnored := by
  intro op s ls₁ ls₂ h
  have hbytes := map_enabledByte_eq h
  obtain ⟨hr, h₁, h₂⟩ | ⟨r, h₁, h₂⟩ := exec_beatInstr_alike op s h.length_eq
  · have hread : (commitBeat op ls₁ s).out.lanes.map readableLane =
        (commitBeat op ls₂ s).out.lanes.map readableLane := by
      simp only [commitBeat_out_of_ready op _ hr, laneOuts_map_readableLane_of_enabledByte, hbytes]
    have hvalid : (commitBeat op ls₁ s).out.valid = (commitBeat op ls₂ s).out.valid := by
      simp only [commitBeat_out_of_ready op _ hr]
    have hout : (commitBeat op ls₁ s).output = (commitBeat op ls₂ s).output := by
      simp only [commitBeat_output_of_ready op _ hr, beatInput_eq_reduceOption, hbytes]
    rw [h₁, h₂]
    refine ⟨by simp, by simp, by simp, fun t₁ t₂ e₁ e₂ => ?_⟩
    cases e₁
    cases e₂
    exact ⟨hvalid, hout, hread⟩
  · rw [h₁, h₂]
    exact ⟨fun _ => Iff.rfl, fun _ => Iff.rfl, by simp, nofun⟩

end Sys2Proof.Proofs

/-! SUPPORT. The pseudo-operations as commands (spec/42_stream.md R77 to R87): what ENCODE and DECODE deliver is the map
of their table over the sequence, and the laws of streams are laws of that map. -/

namespace Sys2Proof.Proofs
open Sys2Proof.Machine Sys2Proof.Laws

/-! ### What a pseudo-operation answers (R75, R77, R81) -/

/-- In state INIT_FAILED the first beat of N lanes is refused, and with it the whole (R75). -/
theorem runBeats_of_initFailed (op : Op) {bs : List (List LaneIn)} {s : State} (hbs : bs ≠ [])
    (hn : ∀ b ∈ bs, b.length = s.config.lanes) (hf : s.InitFailed) :
    runBeats (runBeat op) bs s = .refused (.malformedTable s.status.initCode) := by
  cases bs with
  | nil => exact absurd rfl hbs
  | cons b bs => rw [runBeats, runBeat_of_initFailed (hn b List.mem_cons_self) hf]

/-- The canonical packing of the empty sequence is no beat (R81). -/
theorem canonicalBeats_nil {n : Nat} (hn : 1 ≤ n) (pad : Nat → Byte) : canonicalBeats n pad [] = [] := by
  have hcount : beatCount n 0 = 0 := Nat.div_eq_of_lt (by omega)
  rw [canonicalBeats, List.length_nil, hcount]
  rfl

/-- A sequence presents no beat only if it is empty: its beats spell it (R78, R81). -/
theorem hostBeats_eq_nil_iff (x : List Byte) (s : State) : hostBeats x s = [] ↔ x = [] := by
  constructor
  · intro h
    rw [← hostBeats_flatMap_beatInput x s, h, List.flatMap_nil]
  · rintro rfl
    exact canonicalBeats_nil (Nat.succ_pos s.config.extraLanes) _

theorem exec_streamInstr_nil (op : Op) (s : State) : exec (streamInstr op []) s = .next s := by
  rw [exec_streamInstr, (hostBeats_eq_nil_iff [] s).2 rfl]
  rfl

/-- In state READY a pseudo-operation completes and delivers the map of its table over the sequence (R77). -/
theorem exec_streamInstr_of_ready (op : Op) (x : List Byte) {s : State} (hr : s.Ready) :
    ∃ t, exec (streamInstr op x) s = .next t ∧ t.output = s.output ++ x.map (opTable s.config.blob op) := by
  rw [exec_streamInstr, ← lookup_eq_opTable]
  exact runHostBeats_of_ready op x hr

theorem exec_streamInstr_of_initFailed (op : Op) {x : List Byte} {s : State} (hx : x ≠ []) (hf : s.InitFailed) :
    exec (streamInstr op x) s = .refused (.malformedTable s.status.initCode) := by
  rw [exec_streamInstr]
  exact runBeats_of_initFailed op (mt (hostBeats_eq_nil_iff x s).1 hx) (fun _ => length_of_mem_canonicalBeats) hf

/-- Whenever a pseudo-operation completes, it has delivered the map of its table: in state INIT_FAILED only the empty
sequence completes (R75, R77, R81). -/
theorem exec_streamInstr_next {op : Op} {x : List Byte} {s t : State} (h : exec (streamInstr op x) s = .next t) :
    t.output = s.output ++ x.map (opTable s.config.blob op) := by
  obtain hr | hf := ready_or_initFailed s
  · obtain ⟨u, hu, hout⟩ := exec_streamInstr_of_ready op x hr
    rw [hu] at h
    cases h
    exact hout
  · rw [exec_streamInstr] at h
    obtain ⟨hnil, rfl⟩ := runBeats_next_of_initFailed hf h
    rw [(hostBeats_eq_nil_iff x t).1 hnil, List.map_nil, List.append_nil]

/-- Settles O36: the contract of a pseudo-operation, for each of the two operations. -/
theorem encodeAndDecodeMapTheTables : Obligations.EncodeAndDecodeMapTheTables := fun _ x =>
  ⟨exec_streamInstr_of_ready .enc x, exec_streamInstr_of_ready .dec x, fun hf hx =>
    ⟨exec_streamInstr_of_initFailed .enc hx hf, exec_streamInstr_of_initFailed .dec hx hf⟩⟩

theorem exec_streamInstr_output_length {op : Op} {x : List Byte} {s t : State}
    (h : exec (streamInstr op x) s = .next t) : t.output.length = s.output.length + x.length := by
  rw [exec_streamInstr_next h, List.length_append, List.length_map]

/-- Settles O37: what is delivered is a map over the sequence. -/
theorem streamPreservesLength : Obligations.StreamPreservesLength := by
  rintro s t x (h | h)
  · exact exec_streamInstr_output_length (op := .enc) h
  · exact exec_streamInstr_output_length (op := .dec) h

/-- Settles O38: there is no beat to present. -/
theorem emptySequencePresentsNoBeat : Obligations.EmptySequencePresentsNoBeat :=
  ⟨fun _ pad hn => canonicalBeats_nil hn pad, fun s _ => ⟨exec_streamInstr_nil .enc s, exec_streamInstr_nil .dec s⟩⟩

/-! ### Two sequences, one after the other (R82, R84) or on two engines (R86) -/

/-- Two pseudo-operations one after the other both complete, on the same tables: the first leaves the configuration as
it was (R22). -/
theorem exec_streamInstr_twice (op op' : Op) (x y : List Byte) {s : State} (hr : s.Ready) :
    ∃ t u, exec (streamInstr op x) s = .next t ∧ exec (streamInstr op' y) t = .next u ∧
      t.output = s.output ++ x.map (opTable s.config.blob op) ∧
      u.output = t.output ++ y.map (opTable s.config.blob op') := by
  obtain ⟨t, ht, hout⟩ := exec_streamInstr_of_ready op x hr
  have hc := exec_config ht
  obtain ⟨u, hu, hout'⟩ := exec_streamInstr_of_ready op' y (ready_of_config_eq hc.symm hr)
  exact ⟨t, u, ht, hu, hout, hc ▸ hout'⟩

/-- Running what one operation delivered through another that undoes its table gives the sequence back (R82). -/
theorem exec_streamInstr_undo {op op' : Op} (x : List Byte) {s : State} (hr : s.Ready)
    (h : Function.LeftInverse (opTable s.config.blob op') (opTable s.config.blob op)) :
    ∃ t u, exec (streamInstr op x) s = .next t ∧
      exec (streamInstr op' (t.output.drop s.output.length)) t = .next u ∧ u.output = t.output ++ x := by
  obtain ⟨t, u, ht, hu, hout, hout'⟩ := exec_streamInstr_twice op op' x (x.map (opTable s.config.blob op)) hr
  refine ⟨t, u, ht, ?_, ?_⟩
  · rwa [hout, List.drop_left]
  · rw [hout', List.map_map, h.comp_eq_id, List.map_id]

/-- Settles O39: the tables of a READY engine undo each other. -/
theorem roundTripRestoresSequence : Obligations.RoundTripRestoresSequence := by
  intro s x hr
  obtain ⟨-, -, hinv⟩ := (ready_iff_validTables s).1 hr
  exact ⟨exec_streamInstr_undo (op := .enc) (op' := .dec) x hr fun b => (hinv b).1,
    exec_streamInstr_undo (op := .dec) (op' := .enc) x hr fun b => (hinv b).2⟩

/-- Two READY engines of one blob deliver the same bytes for a sequence (R86). -/
theorem exec_streamInstr_same_blob (op : Op) (x : List Byte) {s₁ s₂ : State} (hr₁ : s₁.Ready) (hr₂ : s₂.Ready)
    (hblob : s₁.config.blob = s₂.config.blob) :
    ∃ t₁ t₂, exec (streamInstr op x) s₁ = .next t₁ ∧ exec (streamInstr op x) s₂ = .next t₂ ∧
      t₁.output.drop s₁.output.length = t₂.output.drop s₂.output.length := by
  obtain ⟨t₁, h₁, hout₁⟩ := exec_streamInstr_of_ready op x hr₁
  obtain ⟨t₂, h₂, hout₂⟩ := exec_streamInstr_of_ready op x hr₂
  exact ⟨t₁, t₂, h₁, h₂, by rw [hout₁, hout₂, List.drop_left, List.drop_left, hblob]⟩

/-- Settles O40: neither the number of lanes nor the history appears in the map of a table. -/
theorem laneCountIsInvisible : Obligations.LaneCountIsInvisible := fun _ _ x hr₁ hr₂ hblob =>
  ⟨exec_streamInstr_same_blob .enc x hr₁ hr₂ hblob, exec_streamInstr_same_blob .dec x hr₁ hr₂ hblob⟩

/-- A sequence delivers what its two pieces deliver one after the other (R84). -/
theorem exec_streamInstr_append (op : Op) (x y : List Byte) {s : State} (hr : s.Ready) :
    ∃ t u v, exec (streamInstr op (x ++ y)) s = .next t ∧ exec (streamInstr op x) s = .next u ∧
      exec (streamInstr op y) u = .next v ∧ t.output = v.output := by
  obtain ⟨t, ht, hout⟩ := exec_streamInstr_of_ready op (x ++ y) hr
  obtain ⟨u, v, hu, hv, houtu, houtv⟩ := exec_streamInstr_twice op op x y hr
  exact ⟨t, u, v, ht, hu, hv, by rw [hout, houtv, houtu, List.map_append, List.append_assoc]⟩

/-- Settles O41: a map over a concatenation is the concatenation of the maps. -/
theorem cutSequencesJoin : Obligations.CutSequencesJoin := fun _ x y hr =>
  ⟨exec_streamInstr_append .enc x y hr, exec_streamInstr_append .dec x y hr⟩

/-- Beats of N lanes deliver the entries of the bytes they spell, however these are packed (R79, R85). -/
theorem runBeats_delivers_spelled (op : Op) {bs : List (List LaneIn)} {x : List Byte} {s : State} (hr : s.Ready)
    (hn : ∀ b ∈ bs, b.length = s.config.lanes) (hx : (bs.map beatInput).flatten = x) :
    ∃ t, runBeats (runBeat op) bs s = .next t ∧ t.output = s.output ++ x.map (opTable s.config.blob op) := by
  rw [← hx, ← List.flatMap_def, ← lookup_eq_opTable]
  exact runBeats_of_ready op bs s hr hn

/-- Settles O44: of the packing only the bytes it spells are delivered. -/
theorem anyOrderPreservingPackingDelivers : Obligations.AnyOrderPreservingPackingDelivers :=
  fun _ _ _ hr hn hx => ⟨runBeats_delivers_spelled .enc hr hn hx, runBeats_delivers_spelled .dec hr hn hx⟩

/-! ### Reading the table out (R87) -/

theorem nodup_allBytes : allBytes.Nodup := by
  refine List.Nodup.map_on (fun i hi j hj h => ?_) List.nodup_range
  simpa [Nat.mod_eq_of_lt (List.mem_range.1 hi), Nat.mod_eq_of_lt (List.mem_range.1 hj)] using congrArg BitVec.toNat h

/-- A permutation of the bytes, listed, is the bytes in another order (R15, R87). -/
theorem map_allBytes_perm {T : Byte → Byte} (h : Perm T) : (allBytes.map T).Perm allBytes := by
  obtain ⟨hinj, hsurj⟩ := (perm_iff_bijective T).1 h
  refine (List.perm_ext_iff_of_nodup (nodup_allBytes.map hinj) nodup_allBytes).2 fun v => ?_
  obtain ⟨b, rfl⟩ := hsurj v
  exact iff_of_true (List.mem_map_of_mem (mem_allBytes b)) (mem_allBytes _)

/-- The encode table, listed, is blob bytes 0 to 255 (R14). -/
theorem map_encodeTable_allBytes (R : Blob) : allBytes.map (encodeTable R) = R.toList.take 256 := by
  refine List.ext_getElem (by simp [allBytes]) fun i hi _ => ?_
  have hi' : i < 256 := by simpa [allBytes] using hi
  simp [allBytes, encodeTable, Nat.mod_eq_of_lt hi']

/-- The decode table, listed, is blob bytes 256 to 511 (R14). -/
theorem map_decodeTable_allBytes (R : Blob) : allBytes.map (decodeTable R) = R.toList.drop 256 := by
  refine List.ext_getElem (by simp [allBytes]) fun i hi _ => ?_
  have hi' : i < 256 := by simpa [allBytes] using hi
  simp [allBytes, decodeTable, Nat.mod_eq_of_lt hi']

/-- Settles O42: the map of a table over all bytes lists that half of the blob, and the tables of a READY engine are
permutations. -/
theorem ascendingBytesReadTheTableOut : Obligations.AscendingBytesReadTheTableOut := by
  intro s hr
  obtain ⟨hE, hD, -⟩ := (ready_iff_validTables s).1 hr
  rw [← map_encodeTable_allBytes, ← map_decodeTable_allBytes]
  exact ⟨exec_streamInstr_of_ready .enc allBytes hr, exec_streamInstr_of_ready .dec allBytes hr,
    map_allBytes_perm hE, map_allBytes_perm hD⟩

end Sys2Proof.Proofs

/-! SUPPORT. The canonical packing, beat by beat and lane by lane (spec/42_stream.md R78). -/

namespace Sys2Proof.Proofs
open Sys2Proof.Machine

section Packing
variable {n : Nat} {pad : Nat → Byte} {x : List Byte}

theorem packedLane_of_getElem? {j k : Nat} {v : Byte} (h : x[j * n + k]? = some v) :
    packedLane n pad x j k = ⟨true, v⟩ := by
  simp only [packedLane, h]

/-- A lane of the canonical packing is enabled exactly when the sequence has its position (R78). -/
theorem packedLane_en_iff (j k : Nat) : (packedLane n pad x j k).en = true ↔ j * n + k < x.length := by
  unfold packedLane
  split
  · exact iff_of_true rfl (List.getElem?_eq_some_iff.1 ‹_›).1
  · exact iff_of_false nofun (List.getElem?_eq_none_iff.1 ‹_›).not_gt

theorem getElem?_map_range_eq_some_iff {α : Type} {m k : Nat} {f : Nat → α} {a : α} :
    ((List.range m).map f)[k]? = some a ↔ k < m ∧ f k = a := by
  simp [List.getElem?_eq_some_iff]

theorem canonicalBeats_getElem?_eq_some_iff {j : Nat} {b : List LaneIn} :
    (canonicalBeats n pad x)[j]? = some b ↔
      j < beatCount n x.length ∧ (List.range n).map (packedLane n pad x j) = b :=
  getElem?_map_range_eq_some_iff

/-- Every position of the sequence lies in one of the beats (R78). -/
theorem div_lt_beatCount (hn : 1 ≤ n) {i : Nat} (hi : i < x.length) : i / n < beatCount n x.length :=
  (Nat.div_lt_iff_lt_mul hn).2 (hi.trans_le (le_beatCount_mul hn _))
end Packing

/-- Settles O43: beat j is N packed lanes, of which lane k carries position `j * N + k`. -/
theorem canonicalPackingPlacesEveryByte : Obligations.CanonicalPackingPlacesEveryByte := by
  intro n pad x hn
  refine ⟨by simp [canonicalBeats, beatCount], fun _ => length_of_mem_canonicalBeats, fun i v hv => ?_,
    fun j k b l hb hl => ?_⟩
  · have hi : i < x.length := (List.getElem?_eq_some_iff.1 hv).1
    refine ⟨_, canonicalBeats_getElem?_eq_some_iff.2 ⟨div_lt_beatCount hn hi, rfl⟩,
      getElem?_map_range_eq_some_iff.2 ⟨Nat.mod_lt i hn, packedLane_of_getElem? ?_⟩⟩
    rwa [Nat.div_add_mod']
  · obtain ⟨-, rfl⟩ := canonicalBeats_getElem?_eq_some_iff.1 hb
    obtain ⟨-, rfl⟩ := getElem?_map_range_eq_some_iff.1 hl
    exact packedLane_en_iff j k

end Sys2Proof.Proofs

/-! SUPPORT. A READY engine driven by an arbitrary stream (spec/42_stream.md R79, R89,
spec/70_reset_and_hazards.md R119): one step per entry, each adding its own contribution. -/

namespace Sys2Proof.Proofs
open Sys2Proof.Machine Sys2Proof.Laws

/-- A V word contributes the lookups of the beat it decodes to (R72, R79). -/
theorem driveOutput_of_decodeV {c : Config} {w : Nat} {op : Op} {ls : List LaneIn}
    (h : decodeV c.lanes w = beatInstr op ls) :
    driveOutput c (.cmd (.v w)) = (beatInput ls).map (lookup c.blob op) := by
  simp only [driveOutput, h]
  cases op <;> rfl

/-- In state READY one step consumes the entry presented, adds its contribution to the output sequence and leaves the
configuration as it was (R56, R79, R119). -/
theorem step_drive_of_ready {s : State} {d : Drive} {rest : List Drive} (hr : s.Ready) (hs : s.stream = d :: rest)
    (hfit : driveFits s.config.lanes d) :
    ∃ t, step s = .next t ∧ t.config = s.config ∧ t.stream = rest ∧ t.output = s.output ++ driveOutput s.config d := by
  have hr' : (withStream rest s).Ready := hr
  cases d with
  | idle => exact ⟨_, step_of_idle (.inr hs), rfl, rfl, (List.append_nil _).symm⟩
  | cmd w =>
    cases w with
    | s w =>
      have hstep := (step_of_decode_ok hs rfl).trans (exec_scalarInstr_of_ready _ _ hr')
      exact ⟨_, hstep, rfl, rfl, (List.append_nil _).symm⟩
    | v w =>
      obtain ⟨op, ls, hls, hdec⟩ := everyWordIsACommand.2 s.config.lanes w hfit
      have hstep := (step_of_decode_ok hs hdec).trans (exec_beatInstr_of_ready op hls hr')
      refine ⟨_, hstep, rfl, rfl, ?_⟩
      rw [driveOutput_of_decodeV (decode_v_eq_ok_iff.1 hdec).2]
      exact commitBeat_output_of_ready op ls hr'

/-- Settles O50: by induction on the stream; each step leaves a READY engine of the same configuration with the rest
of the stream. -/
theorem readyRunCollectsEveryBeat : Obligations.ReadyRunCollectsEveryBeat := by
  intro s
  induction hs : s.stream generalizing s with
  | nil => exact fun _ _ => ⟨s, rfl, hs, by simp⟩
  | cons d rest ih =>
    intro hr hfit
    obtain ⟨hd, hrest⟩ := List.forall_mem_cons.1 hfit
    obtain ⟨t, hstep, hc, hts, hout⟩ := step_drive_of_ready hr hs hd
    obtain ⟨u, hrun, hus, houtu⟩ := ih t hts (ready_of_config_eq hc.symm hr) (hc ▸ hrest)
    refine ⟨u, (run_succ_of_step_next hstep).trans hrun, hus, ?_⟩
    rw [houtu, hout, hc, List.map_cons, List.flatten_cons, List.append_assoc]

end Sys2Proof.Proofs

/-! SUPPORT. What `Check` reports and what the builder makes of it (spec/60_exceptions.md R92 to R96,
spec/70_reset_and_hazards.md R107, R121), and a run on an engine that is INIT_FAILED (R97, R98). -/

namespace Sys2Proof.Proofs
open Sys2Proof.Machine Sys2Proof.Laws

/-! ### The least value that fails a test (R92) -/

theorem mem_encodeHalf_iff {R : Blob} {v : Byte} : v ∈ encodeHalf R ↔ ∃ i, encodeTable R i = v := by
  simp [encodeHalf, ← map_encodeTable_allBytes, mem_allBytes]

theorem mem_decodeHalf_iff {R : Blob} {v : Byte} : v ∈ decodeHalf R ↔ ∃ i, decodeTable R i = v := by
  simp [decodeHalf, ← map_decodeTable_allBytes, mem_allBytes]

/-- A search of the byte values in ascending order answers the least byte that passes. -/
theorem find?_range_eq_some_byte {p : Nat → Bool} {v : Byte} (hv : p v.toNat = true)
    (hlt : ∀ u : Byte, u < v → p u.toNat = false) : (List.range 256).find? p = some v.toNat := by
  refine List.find?_range_eq_some.2 ⟨hv, List.mem_range.2 v.isLt, fun j hj => ?_⟩
  have hmod : (BitVec.ofNat 8 j).toNat = j := Nat.mod_eq_of_lt (hj.trans v.isLt)
  have hfail := hlt (BitVec.ofNat 8 j) (by rwa [BitVec.lt_def, hmod])
  rw [← hmod, hfail]
  rfl

theorem leastMissing_eq_some {T : List Byte} {v : Byte} (hv : v ∉ T) (hlt : ∀ u : Byte, u < v → u ∈ T) :
    leastMissing T = some v.toNat :=
  find?_range_eq_some_byte (by simpa using hv) fun u hu => by simpa using hlt u hu

theorem leastMissing_encodeHalf_eq_some {R : Blob} {v : Byte} (hv : ∀ i, encodeTable R i ≠ v)
    (hlt : ∀ u : Byte, u < v → ∃ i, encodeTable R i = u) : leastMissing (encodeHalf R) = some v.toNat :=
  leastMissing_eq_some (fun h => not_exists.2 hv (mem_encodeHalf_iff.1 h)) fun u hu => mem_encodeHalf_iff.2 (hlt u hu)

theorem leastMissing_decodeHalf_eq_some {R : Blob} {v : Byte} (hv : ∀ i, decodeTable R i ≠ v)
    (hlt : ∀ u : Byte, u < v → ∃ i, decodeTable R i = u) : leastMissing (decodeHalf R) = some v.toNat :=
  leastMissing_eq_some (fun h => not_exists.2 hv (mem_decodeHalf_iff.1 h)) fun u hu => mem_decodeHalf_iff.2 (hlt u hu)

theorem leastNotUndone_eq_some {R : Blob} {b : Byte} (hb : decodeTable R (encodeTable R b) ≠ b)
    (hlt : ∀ u : Byte, u < b → decodeTable R (encodeTable R u) = u) : leastNotUndone R = some b.toNat :=
  find?_range_eq_some_byte (by simpa using hb) fun u hu => by simpa using hlt u hu

/-! ### `Check`, test by test (R93) -/

section CheckTables
variable {R : Blob} {v : Nat}

theorem checkTables_of_encode_missing (he : leastMissing (encodeHalf R) = some v) :
    checkTables R = { code := .encNotBijection, info := some v } := by
  simp only [checkTables, he]

theorem checkTables_of_decode_missing (he : leastMissing (encodeHalf R) = none)
    (hd : leastMissing (decodeHalf R) = some v) : checkTables R = { code := .decNotBijection, info := some v } := by
  simp only [checkTables, he, hd]

theorem checkTables_of_not_undone (he : leastMissing (encodeHalf R) = none) (hd : leastMissing (decodeHalf R) = none)
    (hn : leastNotUndone R = some v) : checkTables R = { code := .notInverse, info := some v } := by
  simp only [checkTables, he, hd, hn]

theorem checkTables_of_pass (he : leastMissing (encodeHalf R) = none) (hd : leastMissing (decodeHalf R) = none)
    (hn : leastNotUndone R = none) : checkTables R = { code := .ok, info := none } := by
  simp only [checkTables, he, hd, hn]
end CheckTables

theorem toBlob?_of_length_ne {B : List Byte} (h : B.length ≠ 512) : toBlob? B = none := dif_neg h

theorem check_of_length_ne {B : List Byte} (h : B.length ≠ 512) :
    check B = { code := .blobLength, info := some B.length } := by
  simp only [check, toBlob?_of_length_ne h]

/-- Every 512 raw bytes are those of a blob (R13, R31). -/
theorem exists_blob_of_length {B : List Byte} (h : B.length = 512) : ∃ R : Blob, R.toList = B :=
  ⟨⟨⟨B⟩, h⟩, rfl⟩

/-- `Check(B).code = 0` exactly for a valid blob (R94). -/
theorem check_ok_iff (B : List Byte) : (check B).code = .ok ↔ ValidBlob B := by
  by_cases hlen : B.length = 512
  · obtain ⟨R, rfl⟩ := exists_blob_of_length hlen
    rw [check_toList, validBlob_toList, checkTables_ok_iff]
  · rw [check_of_length_ne hlen, ValidBlob, toBlob?_of_length_ne hlen]
    exact iff_of_false nofun nofun

/-- What the check reports fixes the pair on the pins (R93). -/
theorem and_statusOf_eq {r r' : CheckResult} (h : r = r') : r = r' ∧ statusOf r = statusOf r' :=
  ⟨h, congrArg statusOf h⟩

/-- Settles O11: each test searches for the least value that fails it; the tests before it find none. -/
theorem checkReportsFirstFailure : Obligations.CheckReportsFirstFailure := by
  refine ⟨fun B hlen => and_statusOf_eq (check_of_length_ne hlen), fun B R hR => ?tables, check_ok_iff,
    fun B => ⟨?initOk, rfl⟩⟩
  case tables =>
    obtain rfl := toBlob?_eq_some_iff.1 hR
    rw [check_toList]
    refine ⟨fun v hv hlt => ?encode, fun hE => ⟨fun v hv hlt => ?decode, fun hD => ⟨fun b hb hlt => ?inverse,
      fun hinv => ?pass⟩⟩⟩
    case encode =>
      exact and_statusOf_eq (checkTables_of_encode_missing (leastMissing_encodeHalf_eq_some hv hlt))
    case decode =>
      exact and_statusOf_eq (checkTables_of_decode_missing (leastMissing_encodeHalf hE)
        (leastMissing_decodeHalf_eq_some hv hlt))
    case inverse =>
      exact and_statusOf_eq (checkTables_of_not_undone (leastMissing_encodeHalf hE) (leastMissing_decodeHalf hD)
        (leastNotUndone_eq_some hb hlt))
    case pass =>
      exact and_statusOf_eq (checkTables_of_pass (leastMissing_encodeHalf hE) (leastMissing_decodeHalf hD)
        ((leastNotUndone_eq_none_iff R).2 hinv))
  case initOk =>
    rw [Bool.eq_iff_iff, statusOf_initOk, decide_eq_true_iff]

/-! ### The builder (R96, R107, R121) -/

theorem build_toList_succ (R : Blob) (m : Nat) :
    (build R.toList (m + 1)).instanceBuilt = some (State.built { rom := romOf R, extraLanes := m }) := by
  simp only [build, toBlob?_toList]

/-- The builder's `ROM` holds the bytes it was given (R96). -/
theorem blob_romOf (R : Blob) (m : Nat) : ({ rom := romOf R, extraLanes := m } : Config).blob = R := romOf_blob R

/-- Settles O14: 512 bytes are those of a blob, and what is built of one holds it; an instance comes from no other
bytes, and has a lane. -/
theorem builderReportsAndBuilds : Obligations.BuilderReportsAndBuilds := by
  refine fun B n => ⟨rfl, fun hlen hn => ?_, fun hbad => Option.eq_none_iff_forall_ne_some.2 fun s hs => ?_⟩
  · obtain ⟨R, rfl⟩ := exists_blob_of_length hlen
    obtain ⟨m, rfl⟩ := Nat.exists_eq_add_of_le' hn
    have hblob := blob_romOf R m
    refine ⟨_, build_toList_succ R m, congrArg Vector.toList hblob, rfl, ?_, inv_built _, ?_⟩
    · rw [built_status, status_eq_check, hblob, check_toList]
    · rw [ready_iff_validTables, built_config, hblob, LaunchOK, validBlob_toList, and_iff_left hn]
  · obtain ⟨R, m, rfl, rfl, -⟩ := build_instance hs
    obtain hlen | hn := hbad
    · exact hlen R.length_toList
    · exact Nat.succ_ne_zero m hn

/-! ### A run on an INIT_FAILED engine (R97, R98) -/

/-- In state INIT_FAILED the step that is presented a command word refuses it, whatever the word (R65, R75, R97). -/
theorem step_cmd_of_initFailed {s : State} {w : CmdWord} {rest : List Drive} (hf : s.InitFailed)
    (hs : s.stream = .cmd w :: rest) (hfit : driveFits s.config.lanes (.cmd w)) :
    step s = .refused (.malformedTable s.status.initCode) := by
  have hf' : (withStream rest s).InitFailed := hf
  cases w with
  | s w => exact (step_of_decode_ok hs rfl).trans (exec_scalarInstr_of_initFailed _ _ hf')
  | v w =>
    obtain ⟨op, ls, hls, hdec⟩ := everyWordIsACommand.2 s.config.lanes w hfit
    exact (step_of_decode_ok hs hdec).trans (exec_beatInstr_of_initFailed op hls hf')

/-- Idle evaluations leave an engine INIT_FAILED, so a run that reaches the first command presented is refused there
(R97, R98). -/
theorem run_of_initFailed {s : State} {m k : Nat} {w : CmdWord} {rest : List Drive} (hf : s.InitFailed)
    (hs : s.stream = List.replicate m .idle ++ .cmd w :: rest) (hfit : driveFits s.config.lanes (.cmd w))
    (hk : m < k) : Host.Core.run Sys2Proof.core k s = .refused (.malformedTable s.status.initCode) := by
  obtain ⟨j, rfl⟩ := Nat.exists_eq_add_of_lt hk
  clear hk
  induction m generalizing s with
  | zero => exact run_succ_of_step_refused (step_cmd_of_initFailed hf hs hfit)
  | succ m ih =>
    have hstep := step_of_idle (.inr hs)
    have hrest := ih (s := idleEvaluation (withStream (List.replicate m .idle ++ .cmd w :: rest) s)) hf rfl hfit
    rw [Nat.add_right_comm m 1 j]
    exact (run_succ_of_step_next hstep).trans hrest

/-- Settles O51: a run that is refused has no last state. -/
theorem initFailedRunNeverDelivers : Obligations.InitFailedRunNeverDelivers := by
  intro s m k w rest hf hs hfit hk
  have hrun := run_of_initFailed hf hs hfit hk
  refine ⟨hrun, ?_⟩
  rintro ⟨t, ht⟩
  rw [hrun] at ht
  cases ht

end Sys2Proof.Proofs
